-- ==== Sys2Proof/Word.lean ====
section
/-! DEFINITION. The two word types of the Pippin machine (00_scope R4, R5; 30_encoding R50). -/

namespace Sys2Proof

/-- The 32-bit two's complement word of the accumulator, the program counter and every Data Memory
cell (R5, R13). Its integer value is `BitVec.toInt`. UNVERIFIED (log entry 3): the width is the spec's
decision D1. -/
abbrev Word := BitVec 32

/-- A 64-bit instruction word, the unit of the Code Store (R50). -/
abbrev CodeWord := BitVec 64

end Sys2Proof
end

