-- ==== Sys2Proof/Config.lean ====
section
/-! DEFINITION. The implementation parameters of 00_scope R4 to R6. -/

namespace Sys2Proof.Config

/-- `CODE_CAPACITY`: the most instruction words the Code Store holds (R4). -/
def codeCapacity : Nat := 256

/-- `DATA_SIZE`: the number of Data Memory cells (R4). -/
def dataSize : Nat := 512

/-- `HALT_PC_ADVANCE` of R6, an OPEN parameter with the two values 0 and 1: true stands for 1.
DESIGN CHOICE (log entry 5): an opaque constant, so that no proof can know its value. Safe. -/
opaque haltAdvancesPc : Bool

end Sys2Proof.Config
end

