-- ==== Sys2Proof/Syntax.lean ====
section
/-! DEFINITION. The 30 instructions of the opcode map (30_encoding R55) and the argument classes of R53. -/

namespace Sys2Proof

/-- The instructions, one constructor per row of the opcode map R55, in its order. `arg` is the
argument as the `Int` that 00_scope section 5 gives an instruction's procedure; that it fits 32 bits is
checked by `Instr.wellFormed` (log entry 10). `NOP`, `NOT` and `HALT` take no argument (R54). -/
inductive Instr where
  | nop
  | lodi (arg : Int)
  | lod (arg : Int)
  | lodn (arg : Int)
  | sto (arg : Int)
  | ston (arg : Int)
  | jmpi (arg : Int)
  | jump (arg : Int)
  | jmzi (arg : Int)
  | jmpz (arg : Int)
  | addi (arg : Int)
  | add (arg : Int)
  | addn (arg : Int)
  | subi (arg : Int)
  | sub (arg : Int)
  | subn (arg : Int)
  | muli (arg : Int)
  | mul (arg : Int)
  | muln (arg : Int)
  | divi (arg : Int)
  | div (arg : Int)
  | divn (arg : Int)
  | andi (arg : Int)
  | and (arg : Int)
  | not
  | cmpl (arg : Int)
  | cmpz (arg : Int)
  | copy (arg : Int)
  | cpyn (arg : Int)
  | halt
  deriving DecidableEq, Repr

/-- What the argument of an instruction is (the ten classes of R53). -/
inductive ArgClass where
  | none
  | immediateValue
  | immediateTarget
  | directData
  | directStore
  | directTarget
  | indirectData
  | indirectStore
  | descriptor
  | descriptorPointer
  deriving DecidableEq, Repr

/-- The three addressing modes of 40_step R84. -/
inductive Mode where
  | immediate
  | direct
  | indirect
  deriving DecidableEq, Repr

end Sys2Proof
end

