-- ==== Sys2Proof/WellFormed.lean ====
section
/-! DEFINITION. When an instruction is one the encoding can hold: its argument fits the 32-bit signed field (30_encoding R50, R59). -/

namespace Sys2Proof

/-- The value of a 32-bit two's complement integer: in [-2^31, 2^31 - 1] (R5). -/
abbrev fits32 (v : Int) : Prop := -2147483648 ≤ v ∧ v ≤ 2147483647

/-- The argument field of an instruction as the assembler emits it: 0 for the zero-argument
instructions (30_encoding R54, R66). -/
def Instr.arg : Instr → Int
  | .nop | .not | .halt => 0
  | .lodi a | .lod a | .lodn a | .sto a | .ston a => a
  | .jmpi a | .jump a | .jmzi a | .jmpz a => a
  | .addi a | .add a | .addn a | .subi a | .sub a | .subn a => a
  | .muli a | .mul a | .muln a | .divi a | .div a | .divn a => a
  | .andi a | .and a | .cmpl a | .cmpz a | .copy a | .cpyn a => a

/-- The one check of an instruction: every 32-bit argument is legal in every opcode and no other
(R59). -/
abbrev Instr.wellFormed (i : Instr) : Prop := fits32 i.arg

end Sys2Proof
end

