-- ==== Sys2Proof/Decode.lean ====
section
/-! DEFINITION. Packing and unpacking (30_encoding R51), the opcode map (R55), the total decoder (R52, R57, R58) and the encoder. -/

namespace Sys2Proof

/-- `sext_32` of 00_scope section 5: the signed integer of a 32-bit field. -/
def sext32 (u : BitVec 32) : Int :=
  if u.toNat < 2147483648 then (u.toNat : Int) else (u.toNat : Int) - 4294967296

/-- `zext_32` of 00_scope section 5: the 32-bit field of an integer, its value modulo 2^32. -/
def zext32 (v : Int) : BitVec 32 := BitVec.ofInt 32 v

/-- `pack(op, a)` of R51: the opcode in the high half, the argument in the low half. -/
def pack (op a : Int) : CodeWord := zext32 op ++ zext32 a

/-- The opcode field, bits 63:32, compared whole (R50, R52). -/
def opcodeField (w : CodeWord) : Nat := (w.extractLsb' 32 32).toNat

/-- The argument field, bits 31:0, sign-extended (R51). -/
def argField (w : CodeWord) : Int := sext32 (w.extractLsb' 0 32)

/-- `unpack(w)` of R51. -/
def unpack (w : CodeWord) : Nat × Int := (opcodeField w, argField w)

/-- The opcode map R55, one row per instruction: opcode, mnemonic, argument class (R53), and the
instruction with a given argument. -/
def opcodeTable : List (Nat × List Char × ArgClass × (Int → Instr)) :=
  [ (0x00, ['N','O','P'], .none, fun _ => .nop),
    (0x01, ['L','O','D','I'], .immediateValue, .lodi),
    (0x02, ['L','O','D'], .directData, .lod),
    (0x03, ['L','O','D','N'], .indirectData, .lodn),
    (0x04, ['S','T','O'], .directStore, .sto),
    (0x05, ['S','T','O','N'], .indirectStore, .ston),
    (0x06, ['J','M','P','I'], .immediateTarget, .jmpi),
    (0x07, ['J','U','M','P'], .directTarget, .jump),
    (0x08, ['J','M','Z','I'], .immediateTarget, .jmzi),
    (0x09, ['J','M','P','Z'], .directTarget, .jmpz) ] ++
  [ (0x0A, ['A','D','D','I'], .immediateValue, .addi),
    (0x0B, ['A','D','D'], .directData, .add),
    (0x0C, ['A','D','D','N'], .indirectData, .addn),
    (0x0D, ['S','U','B','I'], .immediateValue, .subi),
    (0x0E, ['S','U','B'], .directData, .sub),
    (0x0F, ['S','U','B','N'], .indirectData, .subn),
    (0x10, ['M','U','L','I'], .immediateValue, .muli),
    (0x11, ['M','U','L'], .directData, .mul),
    (0x12, ['M','U','L','N'], .indirectData, .muln),
    (0x13, ['D','I','V','I'], .immediateValue, .divi),
    (0x14, ['D','I','V'], .directData, .div),
    (0x15, ['D','I','V','N'], .indirectData, .divn) ] ++
  [ (0x16, ['A','N','D','I'], .immediateValue, .andi),
    (0x17, ['A','N','D'], .directData, .and),
    (0x18, ['N','O','T'], .none, fun _ => .not),
    (0x19, ['C','M','P','L'], .directData, .cmpl),
    (0x1A, ['C','M','P','Z'], .directData, .cmpz),
    (0x1D, ['C','O','P','Y'], .descriptor, .copy),
    (0x1E, ['C','P','Y','N'], .descriptorPointer, .cpyn),
    (0x1F, ['H','A','L','T'], .none, fun _ => .halt) ]

/-- Why a word is no instruction (R57, R58). -/
inductive DecodeError where
  /-- The opcode is `0x1B` or `0x1C`, to which "no instruction maps" (R57). -/
  | reservedOpcode
  /-- The opcode is outside the table and not reserved (R58). -/
  | undefinedOpcode
  deriving DecidableEq, Repr

/-- The row of the opcode map for an opcode, its constructor applied to the argument. -/
def tableInstr (op : Nat) (arg : Int) : Option Instr :=
  (opcodeTable.find? fun row => row.1 == op).map fun row => row.2.2.2 arg

/-- The decoder: every 64-bit word selects exactly one row of R55 or is rejected by name (R52, R57,
R58). DEDUCED (log entry 22): the argument bits of NOP, NOT and HALT are dropped (R54). -/
def decode (w : CodeWord) : Except DecodeError Instr :=
  match tableInstr (opcodeField w) (argField w) with
  | some i => .ok i
  | none =>
    if opcodeField w = 0x1B ∨ opcodeField w = 0x1C then .error .reservedOpcode
    else .error .undefinedOpcode

/-- The opcode of an instruction (R55). -/
def Instr.opcode : Instr → Nat
  | .nop => 0x00
  | .lodi _ => 0x01
  | .lod _ => 0x02
  | .lodn _ => 0x03
  | .sto _ => 0x04
  | .ston _ => 0x05
  | .jmpi _ => 0x06
  | .jump _ => 0x07
  | .jmzi _ => 0x08
  | .jmpz _ => 0x09
  | .addi _ => 0x0A
  | .add _ => 0x0B
  | .addn _ => 0x0C
  | .subi _ => 0x0D
  | .sub _ => 0x0E
  | .subn _ => 0x0F
  | .muli _ => 0x10
  | .mul _ => 0x11
  | .muln _ => 0x12
  | .divi _ => 0x13
  | .div _ => 0x14
  | .divn _ => 0x15
  | .andi _ => 0x16
  | .and _ => 0x17
  | .not => 0x18
  | .cmpl _ => 0x19
  | .cmpz _ => 0x1A
  | .copy _ => 0x1D
  | .cpyn _ => 0x1E
  | .halt => 0x1F

/-- The encoder: `pack(opcode, arg)`, with argument 0 for the zero-argument instructions (R54, R66). -/
def encode (i : Instr) : CodeWord := pack i.opcode i.arg

/-- The argument class of an instruction (R53), read from the opcode map. -/
def Instr.argClass (i : Instr) : ArgClass :=
  ((opcodeTable.find? fun row => row.1 == i.opcode).map fun row => row.2.2.1).getD .none

/-- The mnemonic of an instruction (R55), read from the opcode map. -/
def Instr.mnemonic (i : Instr) : List Char :=
  ((opcodeTable.find? fun row => row.1 == i.opcode).map fun row => row.2.1).getD []

/-- The one instruction word of a row of spec/opcode_table.json, numbered as the table numbers its
bits: opcode in 63:32, argument in 31:0. Every bit above `nbits` is 0. -/
def tableWord (nbits w : Nat) : CodeWord := BitVec.ofNat 64 (w % 2 ^ nbits)

/-- What the decoder reads from the instruction whose bits are `w`. -/
def decodeTableWord (nbits w : Nat) : Option Instr :=
  match decode (tableWord nbits w) with
  | .ok i => some i
  | .error _ => none

end Sys2Proof
end

