-- ==== Sys2Proof/Machine/State.lean ====
section
/-! DEFINITION. The state of the engine (10_state R10), its faults (60_exceptions R170), the result of a step (40_step R83) and the reset state (10_state R21). -/

namespace Sys2Proof.Machine

/-- The five kinds of engine fault (60_exceptions R170). A fault does not end the model's run: its entry
is fully described (R176), so `State.takeFault` answers a NEXT state and the kind travels in
`State.lastResult`. No step of this model ends in `Host.Outcome.fault` (log entry 1; safe). -/
inductive Fault where
  /-- Raised by the fetch of a step whose `pc` is outside `[0, codeSize - 1]` (R171). Safe. -/
  | access
  /-- Raised by DIVI, DIV and DIVN when the divisor is 0 (R172). Safe. -/
  | arithmetic
  /-- Raised by COPY and CPYN: descriptor inside a range, range out of bounds, negative length (R173). Safe. -/
  | range
  /-- Raised by every data access outside `[0, 511]` (R174). Safe. -/
  | memoryIndex
  /-- Raised by the decode of a word that is none of the 30 instructions (R175, the spec's decision
  D5). Safe. -/
  | illegalOpcode
  deriving DecidableEq, Repr

/-- What the model gives no transition. No step and no instruction is refused. -/
inductive Refusal where
  /-- An instruction whose arm in `exec` has no meaning yet; raised by no arm of this model. Safe. -/
  | notModelled (mnemonic : String)
  /-- The host operation `appendCode` after a `step()`: "the model should refuse it (give it no
  transition)" (70_reset R203, decision D16). Raised by `appendCode` only. Safe. -/
  | appendAfterStep
  deriving DecidableEq, Repr

/-- The four results of a `step()` (40_step R83). -/
inductive StepResult where
  | running
  | halted
  | fault (kind : Fault)
  | alreadyHalted
  deriving DecidableEq, Repr

/-- The Data Memory as (index, word) pairs in canonical form (`Memory.wf`). DESIGN CHOICE (log entry
6): pairs of an index and a whole word, since "a model must not give either store a byte-level view"
(20_memory R31). -/
abbrev Memory := List (Nat × Word)

/-- What a cell with no entry reads as: every cell is 0 after `clear()` (10_state R21). -/
def Memory.unlisted : Word := 0

/-- The canonical form: indexes strictly rising and inside the Data Memory, and no entry that holds
what an unlisted cell reads as. -/
abbrev Memory.wf (m : Memory) : Prop :=
  m.Pairwise (fun c d => c.1 < d.1) ∧ ∀ c ∈ m, c.1 < Config.dataSize ∧ c.2 ≠ Memory.unlisted

/-- The state tuple of 10_state R10, and `lastResult`. -/
structure State where
  /-- The accumulator (R11). -/
  acc : Word
  /-- The program counter, an index into the Code Store; it may hold any 32-bit signed value (R13). -/
  pc : Word
  /-- 1 when the engine has stopped, by HALT or by a fault (R14). -/
  halted : Bool
  /-- The Data Memory index last written, -1 for none (R16). -/
  changed : Int
  /-- The populated cells `code[0 .. codeSize - 1]` of the Code Store, in order (R17). -/
  code : List CodeWord
  /-- The Data Memory (R18). -/
  mem : Memory
  /-- The result of the last `step()` since the last `clear()`. DESIGN CHOICE (log entry 2): the
  bookkeeping 60_exceptions R177 tells a model to keep; no instruction and no step reads it. -/
  lastResult : Option StepResult
  deriving DecidableEq, Repr

/-- `codeSize` (R10, R17): how many Code Store cells are populated. -/
def State.codeSize (s : State) : Nat := s.code.length

/-- The state after `clear()` and at power-on (R21, 70_reset R201). -/
def State.reset : State :=
  { acc := 0, pc := 0, halted := false, changed := -1, code := [], mem := [], lastResult := none }

end Sys2Proof.Machine
end

