-- ==== Sys2Proof/Machine/Ops.lean ====
section
/-! DEFINITION. The operations every instruction is written with: wrapping (00_scope section 5), the access primitives (20_memory R33 to R35), the pc rule (40_step R86), fetch and decode (R81, R82), taking a fault (60_exceptions R176) and completing a step (40_step R80). -/

namespace Sys2Proof.Machine

/-- What the execution of an instruction answers. -/
abbrev Answer := Host.Outcome State Fault Refusal

/-- `wrap32(x)` of 00_scope section 5: the word whose value is `sext_32(x mod 2^32)`. UNVERIFIED (log
entry 3): that results wrap is the spec's decision D1. -/
def wrap32 (x : Int) : Word := BitVec.ofInt 32 x

/-- The `Int` a cell that holds a `Word` is read as (00_scope section 5). -/
def value (w : Word) : Int := w.toInt

/-- The word of a Data Memory cell. -/
def Memory.read : Memory → Nat → Word
  | [], _ => Memory.unlisted
  | (k, v) :: m, a => if k = a then v else Memory.read m a

/-- Put a word that differs from the unlisted one into its place. -/
def Memory.insert : Memory → Nat → Word → Memory
  | [], a, v => [(a, v)]
  | (k, u) :: m, a, v =>
    if a < k then (a, v) :: (k, u) :: m
    else if a = k then (a, v) :: m
    else (k, u) :: Memory.insert m a v

/-- Write one cell, keeping the canonical form: the unlisted word is written by removing the entry. -/
def Memory.write (m : Memory) (a : Nat) (v : Word) : Memory :=
  if v = Memory.unlisted then m.filter fun c => c.1 ≠ a else Memory.insert m a v

/-- An index of the Data Memory: in `[0, 511]`, compared as a signed number (20_memory R34). -/
abbrev isDataIndex (addr : Int) : Prop := 0 ≤ addr ∧ addr < Config.dataSize

/-- `MemRead(addr, 1)` (20_memory R34). -/
def memRead (addr : Int) (s : State) : Except Fault Int :=
  if isDataIndex addr then .ok (value (s.mem.read addr.toNat)) else .error .memoryIndex

/-- `MemWrite(addr, 1, v)` (20_memory R35): the write also sets `changed`. -/
def memWrite (addr v : Int) (s : State) : Except Fault State :=
  if isDataIndex addr then
    .ok { s with mem := s.mem.write addr.toNat (wrap32 v), changed := addr }
  else .error .memoryIndex

/-- `CodeRead(i)` (20_memory R33): the bound is the populated size. -/
def codeRead (i : Int) (s : State) : Except Fault CodeWord :=
  if 0 ≤ i then
    match s.code[i.toNat]? with
    | some w => .ok w
    | none => .error .access
  else .error .access

/-- `acc <- wrap32(v)`. -/
def State.setAcc (s : State) (v : Int) : State := { s with acc := wrap32 v }

/-- `pc <- pc + 1` (40_step R86). DEDUCED (log entry 8): held in 32 bits, which never wraps after a
successful fetch (10_state R13). -/
def State.advance (s : State) : State := { s with pc := s.pc + 1 }

/-- `pc <- target`, unchecked (42_jump R110). -/
def State.jumpTo (s : State) (target : Int) : State := { s with pc := wrap32 target }

/-- `HALT_PC_ADVANCE` (00_scope R6): 0 or 1, left open. -/
def haltPcAdvance : Word := if Config.haltAdvancesPc then 1 else 0

/-- Taking a fault (60_exceptions R176, R178): `halted <- 1`, the kind is the result of the step, and
nothing else changes. -/
def State.takeFault (s : State) (kind : Fault) : State :=
  { s with halted := true, lastResult := some (.fault kind) }

/-- The end of a step that raised no fault (40_step R80): `Halted` if the engine is now halted, else
`Running`. -/
def State.completed (s : State) : State :=
  { s with lastResult := some (if s.halted then .halted else .running) }

/-- A `step()` on a halted engine (40_step R83): no state change, the result is `AlreadyHalted`. -/
def State.stayHalted (s : State) : State := { s with lastResult := some .alreadyHalted }

/-- The `try ... on raise F` of 40_step R80: an instruction's procedure either completes the step or
leaves the state from before it, with the fault taken. -/
def attempt (s : State) : Except Fault State → Answer
  | .ok t => .next t.completed
  | .error f => .next (s.takeFault f)

/-- Fetch and decode (40_step R80 to R82): `code[pc]`, `AccessFault` outside the populated range, then
`IllegalOpcodeFault` for a word that is no instruction. -/
def fetchInstr (s : State) : Except Fault Instr :=
  match codeRead (value s.pc) s with
  | .error f => .error f
  | .ok w =>
    match decode w with
    | .ok i => .ok i
    | .error _ => .error .illegalOpcode

end Sys2Proof.Machine
end

