-- ==== Sys2Proof/Machine/Operands.lean ====
section
/-! DEFINITION. Operand resolution: the three addressing modes (40_step R84) and delegation from a direct or indirect form to the next simpler form (R85). -/

namespace Sys2Proof.Machine

/-- The operand value of each mode (R84). -/
def operand (m : Mode) (arg : Int) (s : State) : Except Fault Int :=
  match m with
  | .immediate => .ok arg
  | .direct => memRead arg s
  | .indirect =>
    match memRead arg s with
    | .ok p => memRead p s
    | .error f => .error f

/-- Delegation (R85): `X(arg) = XI(MemRead(arg, 1))` for a direct form `X` of the form `XI`, and
`XN(arg) = X(MemRead(arg, 1))` for an indirect form `XN`. -/
def delegate (simpler : Int → State → Except Fault State) (arg : Int) (s : State) :
    Except Fault State :=
  match memRead arg s with
  | .ok v => simpler v s
  | .error f => .error f

end Sys2Proof.Machine
end

