-- ==== Sys2Proof/Machine/Arithmetic.lean ====
section
/-! DEFINITION. The twelve arithmetic instructions (43_arithmetic R121 to R132) under the laws of R120: exact integer result, wrapped to 32 bits; division rounds toward zero. UNVERIFIED (log entries 3 and 4): wrapping and rounding are the spec's decisions D1 and D2. -/

namespace Sys2Proof.Machine

/-- `tdiv(a, b)` of 00_scope section 5: the quotient rounded toward zero. -/
def tdiv (a b : Int) : Int := Int.tdiv a b

/-- R121: `acc <- wrap32(acc + arg); pc <- pc + 1`. -/
def procAddi (arg : Int) (s : State) : Except Fault State :=
  .ok (s.setAcc (value s.acc + arg)).advance

/-- R122: ADDI on `mem[arg]`. -/
def procAdd (arg : Int) (s : State) : Except Fault State := delegate procAddi arg s

/-- R123: ADD on `mem[arg]`. -/
def procAddn (arg : Int) (s : State) : Except Fault State := delegate procAdd arg s

/-- R124: `acc <- wrap32(acc - arg); pc <- pc + 1`. -/
def procSubi (arg : Int) (s : State) : Except Fault State :=
  .ok (s.setAcc (value s.acc - arg)).advance

/-- R125: SUBI on `mem[arg]`. -/
def procSub (arg : Int) (s : State) : Except Fault State := delegate procSubi arg s

/-- R126: SUB on `mem[arg]`. -/
def procSubn (arg : Int) (s : State) : Except Fault State := delegate procSub arg s

/-- R127: `acc <- wrap32(acc * arg); pc <- pc + 1`. -/
def procMuli (arg : Int) (s : State) : Except Fault State :=
  .ok (s.setAcc (value s.acc * arg)).advance

/-- R128: MULI on `mem[arg]`. -/
def procMul (arg : Int) (s : State) : Except Fault State := delegate procMuli arg s

/-- R129: MUL on `mem[arg]`. -/
def procMuln (arg : Int) (s : State) : Except Fault State := delegate procMul arg s

/-- R130: a zero divisor faults; else `acc <- wrap32(tdiv(acc, arg)); pc <- pc + 1`. -/
def procDivi (arg : Int) (s : State) : Except Fault State :=
  if arg = 0 then .error .arithmetic else .ok (s.setAcc (tdiv (value s.acc) arg)).advance

/-- R131: DIVI on `mem[arg]`. -/
def procDiv (arg : Int) (s : State) : Except Fault State := delegate procDivi arg s

/-- R132: DIV on `mem[arg]`. -/
def procDivn (arg : Int) (s : State) : Except Fault State := delegate procDiv arg s

def execAddi (arg : Int) (s : State) : Answer := attempt s (procAddi arg s)
def execAdd (arg : Int) (s : State) : Answer := attempt s (procAdd arg s)
def execAddn (arg : Int) (s : State) : Answer := attempt s (procAddn arg s)
def execSubi (arg : Int) (s : State) : Answer := attempt s (procSubi arg s)
def execSub (arg : Int) (s : State) : Answer := attempt s (procSub arg s)
def execSubn (arg : Int) (s : State) : Answer := attempt s (procSubn arg s)
def execMuli (arg : Int) (s : State) : Answer := attempt s (procMuli arg s)
def execMul (arg : Int) (s : State) : Answer := attempt s (procMul arg s)
def execMuln (arg : Int) (s : State) : Answer := attempt s (procMuln arg s)
def execDivi (arg : Int) (s : State) : Answer := attempt s (procDivi arg s)
def execDiv (arg : Int) (s : State) : Answer := attempt s (procDiv arg s)
def execDivn (arg : Int) (s : State) : Answer := attempt s (procDivn arg s)

end Sys2Proof.Machine
end

