-- ==== Sys2Proof/Machine/BlockCopy.lean ====
section
/-! DEFINITION. COPY and CPYN (45_block_copy R150 to R158). All address sums are unbounded integers (R152). UNVERIFIED (log entry 14): the edge cases are the spec's decisions D9 to D12. -/

namespace Sys2Proof.Machine

/-- `contains([start, stop], x)` of a closed Range (R150). -/
abbrev rangeContains (start stop x : Int) : Prop := start ≤ x ∧ x ≤ stop

/-- Both legality tests of R154 for one range of `length ≥ 1` cells from `start`, with the descriptor
at `a`: no descriptor cell inside it, and every cell of it inside the Data Memory. -/
abbrev rangeIsLegal (a start length : Int) : Prop :=
  ¬ rangeContains start (start + length - 1) a ∧
  ¬ rangeContains start (start + length - 1) (a + 1) ∧
  ¬ rangeContains start (start + length - 1) (a + 2) ∧
  0 ≤ start ∧ start + length - 1 < Config.dataSize

/-- The descriptor at `a`: source, target and length, read in that order (R151). -/
def readDescriptor (a : Int) (s : State) : Except Fault (Int × Int × Int) :=
  match memRead a s with
  | .error f => .error f
  | .ok source =>
    match memRead (a + 1) s with
    | .error f => .error f
    | .ok target =>
      match memRead (a + 2) s with
      | .error f => .error f
      | .ok length => .ok (source, target, length)

/-- The element moves of R155 in the order of a list of element indexes:
`MemWrite(target + i, 1, MemRead(source + i, 1))` for each. -/
def moveCells (source target : Int) : List Nat → State → Except Fault State
  | [], s => .ok s
  | i :: rest, s =>
    match memRead (source + i) s with
    | .error f => .error f
    | .ok v =>
      match memWrite (target + i) v s with
      | .error f => .error f
      | .ok t => moveCells source target rest t

/-- The order of the moves (R155): downward when `source < target`, else upward. -/
def moveOrder (source target : Int) (length : Nat) : List Nat :=
  if source < target then (List.range length).reverse else List.range length

/-- R156 after the descriptor is read. -/
def copyBlock (a source target length : Int) (s : State) : Except Fault State :=
  if length < 0 then .error .range
  else if length = 0 then .ok s.advance
  else if rangeIsLegal a source length ∧ rangeIsLegal a target length then
    match moveCells source target (moveOrder source target length.toNat) s with
    | .ok t => .ok t.advance
    | .error f => .error f
  else .error .range

/-- R156: the block move described by the descriptor at `arg`. -/
def procCopy (arg : Int) (s : State) : Except Fault State :=
  match readDescriptor arg s with
  | .ok (source, target, length) => copyBlock arg source target length s
  | .error f => .error f

/-- R157: COPY with the descriptor address `mem[arg]`. -/
def procCpyn (arg : Int) (s : State) : Except Fault State := delegate procCopy arg s

def execCopy (arg : Int) (s : State) : Answer := attempt s (procCopy arg s)
def execCpyn (arg : Int) (s : State) : Answer := attempt s (procCpyn arg s)

end Sys2Proof.Machine
end

