-- ==== Sys2Proof/Machine/Flags.lean ====
section
/-! DEFINITION. The machine has no flags (10_state R14): a condition is a truth value, and it lives in the accumulator. This file holds the truth values and the tests. -/

namespace Sys2Proof.Machine

/-- A value is true when it is not 0 (44_logic_compare, opening; 10_state R14). -/
def isNonzero (v : Int) : Bool := v ≠ 0

/-- The truth value an instruction writes: exactly 1 or 0 (44_logic_compare, opening). -/
def truth (b : Bool) : Int := if b then 1 else 0

/-- The test of JMZI and JMPZ: the whole 32-bit accumulator is 0 (42_jump R112). -/
def State.accIsZero (s : State) : Bool := value s.acc = 0

end Sys2Proof.Machine
end

