-- ==== Sys2Proof/Machine/Jump.lean ====
section
/-! DEFINITION. JMPI, JUMP, JMZI, JMPZ (42_jump R110 to R113). A target is written unchecked; a bad one faults at the next fetch (R110, R114). -/

namespace Sys2Proof.Machine

/-- R110: `pc <- arg`. -/
def procJmpi (arg : Int) (s : State) : Except Fault State := .ok (s.jumpTo arg)

/-- R111: JMPI on `mem[arg]`. -/
def procJump (arg : Int) (s : State) : Except Fault State := delegate procJmpi arg s

/-- R112: `if acc == 0: pc <- arg else: pc <- pc + 1`. -/
def procJmzi (arg : Int) (s : State) : Except Fault State :=
  .ok (if s.accIsZero then s.jumpTo arg else s.advance)

/-- R113: JMZI on `mem[arg]`, which is read whatever `acc` is. -/
def procJmpz (arg : Int) (s : State) : Except Fault State := delegate procJmzi arg s

def execJmpi (arg : Int) (s : State) : Answer := attempt s (procJmpi arg s)
def execJump (arg : Int) (s : State) : Answer := attempt s (procJump arg s)
def execJmzi (arg : Int) (s : State) : Answer := attempt s (procJmzi arg s)
def execJmpz (arg : Int) (s : State) : Answer := attempt s (procJmpz arg s)

end Sys2Proof.Machine
end

