-- ==== Sys2Proof/Machine/LoadStore.lean ====
section
/-! DEFINITION. LODI, LOD, LODN, STO, STON (41_load_store R100 to R104). `proc…` is the rule's procedure, `exec…` the instruction's meaning: the procedure run by `attempt`. -/

namespace Sys2Proof.Machine

/-- R100: `acc <- arg; pc <- pc + 1`. -/
def procLodi (arg : Int) (s : State) : Except Fault State := .ok (s.setAcc arg).advance

/-- R101: LODI on `mem[arg]`. -/
def procLod (arg : Int) (s : State) : Except Fault State := delegate procLodi arg s

/-- R102: LOD on `mem[arg]`. -/
def procLodn (arg : Int) (s : State) : Except Fault State := delegate procLod arg s

/-- R103: `MemWrite(arg, 1, acc); pc <- pc + 1`. -/
def procSto (arg : Int) (s : State) : Except Fault State :=
  match memWrite arg (value s.acc) s with
  | .ok t => .ok t.advance
  | .error f => .error f

/-- R104: STO on `mem[arg]`. -/
def procSton (arg : Int) (s : State) : Except Fault State := delegate procSto arg s

def execLodi (arg : Int) (s : State) : Answer := attempt s (procLodi arg s)
def execLod (arg : Int) (s : State) : Answer := attempt s (procLod arg s)
def execLodn (arg : Int) (s : State) : Answer := attempt s (procLodn arg s)
def execSto (arg : Int) (s : State) : Answer := attempt s (procSto arg s)
def execSton (arg : Int) (s : State) : Answer := attempt s (procSton arg s)

end Sys2Proof.Machine
end

