-- ==== Sys2Proof/Machine/Logic.lean ====
section
/-! DEFINITION. ANDI, AND, NOT, CMPL, CMPZ (44_logic_compare R140 to R144): logical, not bitwise. -/

namespace Sys2Proof.Machine

/-- R140: 1 when both the argument and `acc` are non-zero, else 0. -/
def procAndi (arg : Int) (s : State) : Except Fault State :=
  .ok (s.setAcc (truth (isNonzero arg && isNonzero (value s.acc)))).advance

/-- R141: ANDI on `mem[arg]`. -/
def procAnd (arg : Int) (s : State) : Except Fault State := delegate procAndi arg s

/-- R142: 1 when `acc` is 0, else 0. -/
def procNot (s : State) : Except Fault State :=
  .ok (s.setAcc (truth (!isNonzero (value s.acc)))).advance

/-- R143: 1 when `mem[arg]` is negative, else 0. -/
def procCmpl (arg : Int) (s : State) : Except Fault State :=
  match memRead arg s with
  | .ok v => .ok (s.setAcc (truth (v < 0))).advance
  | .error f => .error f

/-- R144: 1 when `mem[arg]` is 0, else 0. -/
def procCmpz (arg : Int) (s : State) : Except Fault State :=
  match memRead arg s with
  | .ok v => .ok (s.setAcc (truth (v = 0))).advance
  | .error f => .error f

def execAndi (arg : Int) (s : State) : Answer := attempt s (procAndi arg s)
def execAnd (arg : Int) (s : State) : Answer := attempt s (procAnd arg s)
def execNot (s : State) : Answer := attempt s (procNot s)
def execCmpl (arg : Int) (s : State) : Answer := attempt s (procCmpl arg s)
def execCmpz (arg : Int) (s : State) : Answer := attempt s (procCmpz arg s)

end Sys2Proof.Machine
end

