-- ==== Sys2Proof/Machine/System.lean ====
section
/-! DEFINITION. NOP and HALT (46_nop_halt R160, R161); there are no other system instructions (R162). -/

namespace Sys2Proof.Machine

/-- R160: `pc <- pc + 1`. -/
def procNop (s : State) : Except Fault State := .ok s.advance

/-- R161: `halted <- 1; pc <- pc + HALT_PC_ADVANCE`. -/
def procHalt (s : State) : Except Fault State :=
  .ok { s with halted := true, pc := s.pc + haltPcAdvance }

def execNop (s : State) : Answer := attempt s (procNop s)
def execHalt (s : State) : Answer := attempt s (procHalt s)

end Sys2Proof.Machine
end

