-- ==== Sys2Proof/Machine/Dispatch.lean ====
section
/-! DEFINITION. The Instruction Table (40_step R82): one arm per instruction, each one call of its meaning. -/

namespace Sys2Proof.Machine

def exec (i : Instr) (s : State) : Host.Outcome State Fault Refusal :=
  match i with
  | .nop => Sys2Proof.Machine.execNop s
  | .lodi arg => Sys2Proof.Machine.execLodi arg s
  | .lod arg => Sys2Proof.Machine.execLod arg s
  | .lodn arg => Sys2Proof.Machine.execLodn arg s
  | .sto arg => Sys2Proof.Machine.execSto arg s
  | .ston arg => Sys2Proof.Machine.execSton arg s
  | .jmpi arg => Sys2Proof.Machine.execJmpi arg s
  | .jump arg => Sys2Proof.Machine.execJump arg s
  | .jmzi arg => Sys2Proof.Machine.execJmzi arg s
  | .jmpz arg => Sys2Proof.Machine.execJmpz arg s
  | .addi arg => Sys2Proof.Machine.execAddi arg s
  | .add arg => Sys2Proof.Machine.execAdd arg s
  | .addn arg => Sys2Proof.Machine.execAddn arg s
  | .subi arg => Sys2Proof.Machine.execSubi arg s
  | .sub arg => Sys2Proof.Machine.execSub arg s
  | .subn arg => Sys2Proof.Machine.execSubn arg s
  | .muli arg => Sys2Proof.Machine.execMuli arg s
  | .mul arg => Sys2Proof.Machine.execMul arg s
  | .muln arg => Sys2Proof.Machine.execMuln arg s
  | .divi arg => Sys2Proof.Machine.execDivi arg s
  | .div arg => Sys2Proof.Machine.execDiv arg s
  | .divn arg => Sys2Proof.Machine.execDivn arg s
  | .andi arg => Sys2Proof.Machine.execAndi arg s
  | .and arg => Sys2Proof.Machine.execAnd arg s
  | .not => Sys2Proof.Machine.execNot s
  | .cmpl arg => Sys2Proof.Machine.execCmpl arg s
  | .cmpz arg => Sys2Proof.Machine.execCmpz arg s
  | .copy arg => Sys2Proof.Machine.execCopy arg s
  | .cpyn arg => Sys2Proof.Machine.execCpyn arg s
  | .halt => Sys2Proof.Machine.execHalt s

end Sys2Proof.Machine
end

