-- ==== Sys2Proof/Machine/Loading.lean ====
section
/-! DEFINITION. Where a word must stand to be the next one fetched: used by `State.withFetchWord`. -/

namespace Sys2Proof.Machine

/-- The list with `w` at place `k`, kept elsewhere, filled up with the all-zero word (NOP, 46_nop_halt
R160) where it was too short. -/
def placeAt : Nat → CodeWord → List CodeWord → List CodeWord
  | 0, w, [] => [w]
  | 0, w, _ :: rest => w :: rest
  | k + 1, w, [] => 0 :: placeAt k w []
  | k + 1, w, x :: rest => x :: placeAt k w rest

/-- The index the next fetch can use: `pc` where it is an index of the Code Store, else 0. -/
def fetchIndex (s : State) : Nat :=
  if 0 ≤ value s.pc ∧ value s.pc < Config.codeCapacity then (value s.pc).toNat else 0

/-- `w` stored as the word the next step fetches, in an engine that steps (log entry 11). -/
def State.placeFetchWord (s : State) (w : CodeWord) : State :=
  { s with
    pc := BitVec.ofNat 32 (fetchIndex s),
    halted := false,
    code := placeAt (fetchIndex s) w s.code }

end Sys2Proof.Machine
end

