-- ==== Sys2Proof/Machine/Step.lean ====
section
/-! DEFINITION. `step()` (40_step R80): a halted engine stays as it is, else fetch, decode and execute. -/

namespace Sys2Proof.Machine

/-- R80: one call of `step()`. -/
def step (s : State) : Host.Outcome State Fault Refusal :=
  if s.halted then .next s.stayHalted
  else
    match fetchInstr s with
    | .ok i => exec i s
    | .error f => .next (s.takeFault f)

/-- The state whose next step fetches and runs the instruction with the bits `w` (log entry 11). -/
def State.withFetchWord (s : State) (nbits w : Nat) : State :=
  s.placeFetchWord (tableWord nbits w)

end Sys2Proof.Machine
end

