-- ==== Sys2Proof/Machine/HostOps.lean ====
section
/-! DEFINITION. The host interface at transaction level (70_reset R200 to R210, 10_state R20, 40_step R88). Each operation is one atomic event between steps. -/

namespace Sys2Proof.Machine

/-- The host operations of 70_reset R203. -/
inductive HostOp where
  | clear
  | appendCode (w : CodeWord)
  | setData (index : Int) (v : Word)
  | step
  | getAccumulator
  | getProgramCounter
  | getData (index : Int)
  | getChangedIndex
  | isHalted
  | getCode
  deriving DecidableEq, Repr

/-- What an operation reports to the host. -/
inductive HostReply where
  /-- The operation was done. -/
  | done
  /-- The number an accessor returns. -/
  | number (v : Int)
  /-- The running/halted flag. -/
  | flag (b : Bool)
  /-- The populated Code Store cells, which `getCode()` gives access to (10_state R20). -/
  | codeWords (ws : List CodeWord)
  /-- The result of a `step()` (40_step R83). -/
  | stepped (r : Option StepResult)
  /-- The Code Store is full (70_reset R205). -/
  | loadError
  /-- A data index outside `[0, 511]` (70_reset R206, R207). -/
  | memoryIndexError
  deriving DecidableEq, Repr

/-- A host operation answers a state and a reply, or is refused. -/
abbrev HostAnswer := Host.Outcome (State × HostReply) Fault Refusal

/-- `clear()` (70_reset R200). It drops the bookkeeping of the last result too (log entry 2). -/
def State.clear (s : State) : State :=
  { s with acc := 0, pc := 0, mem := [], code := [], halted := false, changed := -1,
           lastResult := none }

/-- The loading phase (70_reset R203): after a `clear()` and before the first `step()` that follows.
DEDUCED (log entry 12): known by there being no result of a step. -/
def State.isLoading (s : State) : Bool := s.lastResult.isNone

/-- `appendCode(w)` (70_reset R205): refused outside the loading phase (R203, decision D16); a load
error when the store is full (decision D15). -/
def appendCode (w : CodeWord) (s : State) : HostAnswer :=
  if s.isLoading then
    if s.codeSize < Config.codeCapacity then .next ({ s with code := s.code ++ [w] }, .done)
    else .next (s, .loadError)
  else .refused .appendAfterStep

/-- `setData(index, value)` (70_reset R207), accepted between any two steps and while halted (R208). -/
def setData (index : Int) (v : Word) (s : State) : State × HostReply :=
  match memWrite index (value v) s with
  | .ok t => (t, .done)
  | .error _ => (s, .memoryIndexError)

/-- `getData(index)` (70_reset R206). -/
def getData (index : Int) (s : State) : HostReply :=
  match memRead index s with
  | .ok v => .number v
  | .error _ => .memoryIndexError

/-- One host operation (70_reset R203). -/
def hostCall (op : HostOp) (s : State) : HostAnswer :=
  match op with
  | .clear => .next (s.clear, .done)
  | .appendCode w => appendCode w s
  | .setData index v => .next (setData index v s)
  | .step =>
    match step s with
    | .next t => .next (t, .stepped t.lastResult)
    | .fault f => .fault f
    | .refused r => .refused r
  | .getAccumulator => .next (s, .number (value s.acc))
  | .getProgramCounter => .next (s, .number (value s.pc))
  | .getData index => .next (s, getData index s)
  | .getChangedIndex => .next (s, .number s.changed)
  | .isHalted => .next (s, .flag s.halted)
  | .getCode => .next (s, .codeWords s.code)

/-- A sequence of host operations (70_reset R203), with the reply of each. -/
def hostCalls : List HostOp → State → Host.Outcome (State × List HostReply) Fault Refusal
  | [], s => .next (s, [])
  | op :: ops, s =>
    match hostCall op s with
    | .fault f => .fault f
    | .refused r => .refused r
    | .next (t, reply) =>
      match hostCalls ops t with
      | .next (u, replies) => .next (u, reply :: replies)
      | .fault f => .fault f
      | .refused r => .refused r

/-- `run()` (40_step R88): step until the result is not `Running`. It need not end, so the model's
takes the most steps it may make, and answers none when they are used up (log entry 21). -/
def run : Nat → State → Option State
  | 0, _ => none
  | n + 1, s =>
    match step s with
    | .next t => if t.lastResult = some .running then run n t else some t
    | .fault _ => none
    | .refused _ => none

end Sys2Proof.Machine
end

