-- ==== Sys2Proof/Machine/Image.lean ====
section
/-! DEFINITION. Hexadecimal tokens (30_encoding R64), the image text format (R68) and what loading an image does to the engine (R69, 70_reset R204). A text is its list of lines. -/

namespace Sys2Proof.Machine

/-- One line of text. -/
abbrev Line := List Char

/-- White space inside a line (R62). -/
def isBlank (c : Char) : Bool := c = ' ' || c = '\t'

/-- The tokens of a line, separated by white space (R62); `cur` holds the token being read, backwards. -/
def tokensFrom : Line → List Char → List (List Char)
  | [], cur => if cur = [] then [] else [cur.reverse]
  | c :: cs, cur =>
    if isBlank c then
      if cur = [] then tokensFrom cs [] else cur.reverse :: tokensFrom cs []
    else tokensFrom cs (c :: cur)

/-- The tokens of a line. -/
def tokens (l : Line) : List (List Char) := tokensFrom l []

/-- The value of a hexadecimal digit of either case (R64, decision D24). -/
def hexDigit (c : Char) : Option Nat :=
  if 48 ≤ c.toNat ∧ c.toNat ≤ 57 then some (c.toNat - 48)
  else if 97 ≤ c.toNat ∧ c.toNat ≤ 102 then some (c.toNat - 87)
  else if 65 ≤ c.toNat ∧ c.toNat ≤ 70 then some (c.toNat - 55)
  else none

/-- The value of hexadecimal digits after a leading value. -/
def hexDigits : List Char → Nat → Option Nat
  | [], n => some n
  | c :: cs, n =>
    match hexDigit c with
    | some d => hexDigits cs (16 * n + d)
    | none => none

/-- A value that a hexadecimal token may have: one that fits 32 bits, signed (R64). -/
def inTokenRange (v : Int) : Option Int := if fits32 v then some v else none

/-- A hexadecimal token (R64): an optional `-`, then at least one digit, no prefix; the value must fit
the 32-bit signed argument. -/
def hexToken (t : List Char) : Option Int :=
  match t with
  | [] => none
  | ['-'] => none
  | '-' :: ds =>
    match hexDigits ds 0 with
    | some n => inTokenRange (-(n : Int))
    | none => none
  | ds =>
    match hexDigits ds 0 with
    | some n => inTokenRange n
    | none => none

/-- All the tokens of a line as hexadecimal tokens, or none if one of them is not. -/
def hexTokens : List (List Char) → Option (List Int)
  | [] => some []
  | t :: ts =>
    match hexToken t with
    | none => none
    | some v =>
      match hexTokens ts with
      | none => none
      | some vs => some (v :: vs)

/-- The lower-case digit of a value below 16 (the source's example output is `1f`, R64). -/
def digitChar (n : Nat) : Char := Char.ofNat (if n < 10 then 48 + n else 87 + n)

/-- The hexadecimal digits of a number below 16 ^ `most`. -/
def hexText : Nat → Nat → List Char
  | 0, _ => []
  | most + 1, n => if n < 16 then [digitChar n] else hexText most (n / 16) ++ [digitChar (n % 16)]

/-- The token of a 32-bit signed value (R64): a negative value is written with the sign. -/
def tokenText (v : Int) : List Char :=
  if v < 0 then '-' :: hexText 8 v.natAbs else hexText 8 v.toNat

/-- An image (R68): the code lines as (opcode, argument) and the data lines as (address, value), in
order. -/
structure Image where
  code : List (Int × Int)
  data : List (Int × Int)
  deriving DecidableEq, Repr

/-- A line of two hexadecimal tokens. -/
def pairLine (p : Int × Int) : Line := tokenText p.1 ++ ' ' :: tokenText p.2

/-- The sentinel line between code and data (R68). -/
def sentinel : Line := ['-', '1']

/-- The text of an image (R68): code lines, the sentinel, data lines. -/
def Image.text (img : Image) : List Line :=
  img.code.map pairLine ++ sentinel :: img.data.map pairLine

/-- What the Loader reports: all loaded, or a Load fault at a line (60_exceptions R182). -/
inductive LoadReply where
  | loaded
  | loadFault (line : Nat)
  deriving DecidableEq, Repr

/-- A loading answers the engine as left and a report. -/
abbrev LoadAnswer := Host.Outcome (State × LoadReply) Fault Refusal

/-- Loading the lines from the `n`th on (R68, R69, 70_reset R204): a code line is one `appendCode`, a
line whose first integer is -1 switches to the data phase, a data line is one `setData`. It stops at
the first malformed line or failed operation (log entry 20) and rolls nothing back. DESIGN CHOICE, both
left open by the spec: a line with first token -1 switches only if all its tokens are hexadecimal (log
entry 27; safe), and lines that end with no sentinel are reported `loaded` (log entry 28; unsafe). -/
def loadFrom : List Line → Nat → Bool → State → LoadAnswer
  | [], _, _, s => .next (s, .loaded)
  | l :: rest, n, dataPhase, s =>
    match hexTokens (tokens l) with
    | none => .next (s, .loadFault n)
    | some vs =>
      if dataPhase then
        match vs with
        | [addr, v] =>
          match setData addr (wrap32 v) s with
          | (t, .done) => loadFrom rest (n + 1) true t
          | _ => .next (s, .loadFault n)
        | _ => .next (s, .loadFault n)
      else if vs.head? = some (-1) then loadFrom rest (n + 1) true s
      else
        match vs with
        | [op, a] =>
          match appendCode (pack op a) s with
          | .next (t, .done) => loadFrom rest (n + 1) false t
          | .next _ => .next (s, .loadFault n)
          | .fault f => .fault f
          | .refused r => .refused r
        | _ => .next (s, .loadFault n)

/-- The Loader's effect on the engine, which the caller has cleared (70_reset R204). -/
def load (lines : List Line) (s : State) : LoadAnswer := loadFrom lines 1 false s

end Sys2Proof.Machine
end

