-- ==== Sys2Proof/Machine/Assembler.lean ====
section
/-! DEFINITION. The assembler syntax (30_encoding R62 to R67): which source texts are programs, and the image each stands for. Error texts and their ordering within a line are not the spec's (R62); the kinds below are the model's (log entry 19). -/

namespace Sys2Proof.Machine

/-- Why a line is not accepted (R62 to R65). -/
inductive SyntaxReason where
  | leadingWhiteSpace
  | secondBlankLine
  | unknownMnemonic
  | missingArgument
  | extraToken
  | notHexadecimal
  | notAnAddressAndValue
  | missingEndcode
  deriving DecidableEq, Repr

/-- The Assembler's fault: a line number and a reason (60_exceptions R182). -/
structure SyntaxFault where
  line : Nat
  reason : SyntaxReason
  deriving DecidableEq, Repr

/-- The line that ends the code section (R65). -/
def endcode : Line := ['E', 'N', 'D', 'C', 'O', 'D', 'E']

/-- The tokens of a code line as an instruction (R63): a zero-argument mnemonic alone, any other with
exactly one hexadecimal token. -/
def codeLine (ts : List (List Char)) : Except SyntaxReason Instr :=
  match ts with
  | [] => .error .unknownMnemonic
  | m :: rest =>
    match opcodeTable.find? fun row => row.2.1 == m with
    | none => .error .unknownMnemonic
    | some row =>
      match row.2.2.1, rest with
      | .none, [] => .ok (row.2.2.2 0)
      | .none, _ :: _ => .error .extraToken
      | _, [] => .error .missingArgument
      | _, [t] =>
        match hexToken t with
        | some v => .ok (row.2.2.2 v)
        | none => .error .notHexadecimal
      | _, _ :: _ :: _ => .error .extraToken

/-- The tokens of a data line (R65): exactly two hexadecimal tokens, address and value. -/
def dataLine (ts : List (List Char)) : Except SyntaxReason (Int × Int) :=
  match hexTokens ts with
  | some [addr, v] => .ok (addr, v)
  | some _ => .error .notAnAddressAndValue
  | none => .error .notHexadecimal

/-- The image line of an instruction (R66). -/
def imageLine (i : Instr) : Int × Int := (i.opcode, i.arg)

/-- The text of an instruction as a code line (R63). -/
def instrText (i : Instr) : Line :=
  if i.argClass = .none then i.mnemonic else i.mnemonic ++ ' ' :: tokenText i.arg

/-- Assembling the lines from the `n`th on (R62 to R66); the flags say whether a blank line has been
seen and whether `ENDCODE` has. The first fault ends it with no output (60_exceptions R182). DESIGN
CHOICE (log entry 26): no limit on the number of code lines; whether the Assembler has one is open
(91_not_in_source N26). Unsafe for claims about longer
texts only. -/
def assembleFrom : List Line → Nat → Bool → Bool → Except SyntaxFault Image
  | [], n, _, dataPhase => if dataPhase then .ok ⟨[], []⟩ else .error ⟨n, .missingEndcode⟩
  | l :: rest, n, blankSeen, dataPhase =>
    if tokens l = [] then
      if blankSeen then .error ⟨n, .secondBlankLine⟩ else assembleFrom rest (n + 1) true dataPhase
    else if (l.head?.map isBlank) = some true then .error ⟨n, .leadingWhiteSpace⟩
    else if dataPhase then
      match dataLine (tokens l) with
      | .error e => .error ⟨n, e⟩
      | .ok p =>
        match assembleFrom rest (n + 1) blankSeen true with
        | .error e => .error e
        | .ok img => .ok ⟨img.code, p :: img.data⟩
    else if l = endcode then assembleFrom rest (n + 1) blankSeen true
    else
      match codeLine (tokens l) with
      | .error e => .error ⟨n, e⟩
      | .ok i =>
        match assembleFrom rest (n + 1) blankSeen false with
        | .error e => .error e
        | .ok img => .ok ⟨imageLine i :: img.code, img.data⟩

/-- The image of a source text, or its first fault (R62 to R66). -/
def assemble (lines : List Line) : Except SyntaxFault Image := assembleFrom lines 1 false false

end Sys2Proof.Machine
end

