-- ==== Sys2Proof/Safety.lean ====
section
/-! DEFINITION. What holds of every state of the engine, and what counts as a run that ends well (70_reset R210, R212). -/

namespace Sys2Proof.Machine

/-- The column "`halted` after" of 40_step R83: which bit goes with a last result. -/
def haltedAfter : Option StepResult → Bool
  | none => false
  | some .running => false
  | some .halted => true
  | some (.fault _) => true
  | some .alreadyHalted => true

/-- The ranges of 10_state R10 and the model's canonical memory: what every step and every host
operation keeps. -/
structure State.Inv (s : State) : Prop where
  /-- The Data Memory is in canonical form, every index inside `[0, 511]`. -/
  mem_wf : s.mem.wf
  /-- `codeSize` is in `[0, 256]` (R10). -/
  code_fits : s.codeSize ≤ Config.codeCapacity
  /-- `changed` is in `[-1, 511]` (R10). -/
  changed_range : -1 ≤ s.changed ∧ s.changed < Config.dataSize
  /-- `halted` is the bit that goes with the last result (40_step R83). -/
  halted_agrees : s.halted = haltedAfter s.lastResult

/-- The step that led here raised a fault. -/
def State.faulted (s : State) : Prop := ∃ f, s.lastResult = some (.fault f)

/-- A run that ends well (70_reset R210): it ends, within `n` steps, with the result `Halted`. -/
def endsWell (n : Nat) (s : State) : Prop := ∃ t, run n s = some t ∧ t.lastResult = some .halted

end Sys2Proof.Machine
end

