-- ==== Sys2Proof/Certificates/Slice0/Obligations.lean ====
section
/-! DEFINITION. The statements for the provers, each with the rule of spec/ it formalises or the sections it rests on. The names before them only abbreviate. -/

namespace Sys2Proof.Machine

/-- The state after a fault (60_exceptions R176), written out. -/
def afterFault (s : State) (f : Fault) : State :=
  { s with halted := true, lastResult := some (.fault f) }

/-- LODI, LOD, LODN by addressing mode (30_encoding R56). -/
def loadForm : Mode → Int → Instr
  | .immediate => .lodi
  | .direct => .lod
  | .indirect => .lodn

/-- ADDI, ADD, ADDN by addressing mode. -/
def addForm : Mode → Int → Instr
  | .immediate => .addi
  | .direct => .add
  | .indirect => .addn

/-- SUBI, SUB, SUBN by addressing mode. -/
def subForm : Mode → Int → Instr
  | .immediate => .subi
  | .direct => .sub
  | .indirect => .subn

/-- MULI, MUL, MULN by addressing mode. -/
def mulForm : Mode → Int → Instr
  | .immediate => .muli
  | .direct => .mul
  | .indirect => .muln

/-- DIVI, DIV, DIVN by addressing mode. -/
def divForm : Mode → Int → Instr
  | .immediate => .divi
  | .direct => .div
  | .indirect => .divn

/-- The state after an instruction that only writes `acc` (and `pc`). -/
def accWritten (s : State) (v : Int) : State :=
  { s with acc := wrap32 v, pc := s.pc + 1, lastResult := some .running }

/-- The state after an instruction that only writes `pc`. -/
def pcWritten (s : State) (pc : Word) : State :=
  { s with pc := pc, lastResult := some .running }

/-- The opcodes of the fixed set of 30_encoding R55. -/
def inOpcodeSet (op : Nat) : Prop := op ≤ 0x1A ∨ op = 0x1D ∨ op = 0x1E ∨ op = 0x1F

/-- The instructions that write the accumulator (10_state R11). -/
def writesAcc : Instr → Prop
  | .lodi _ | .lod _ | .lodn _ | .andi _ | .and _ | .not | .cmpl _ | .cmpz _ => True
  | .addi _ | .add _ | .addn _ | .subi _ | .sub _ | .subn _ => True
  | .muli _ | .mul _ | .muln _ | .divi _ | .div _ | .divn _ => True
  | .nop | .halt | .sto _ | .ston _ | .copy _ | .cpyn _ => False
  | .jmpi _ | .jump _ | .jmzi _ | .jmpz _ => False

/-- The instructions that write the Data Memory (10_state R16). -/
def storesData : Instr → Prop
  | .sto _ | .ston _ | .copy _ | .cpyn _ => True
  | .nop | .halt | .lodi _ | .lod _ | .lodn _ | .andi _ | .and _ | .not | .cmpl _ | .cmpz _ => False
  | .addi _ | .add _ | .addn _ | .subi _ | .sub _ | .subn _ => False
  | .muli _ | .mul _ | .muln _ | .divi _ | .div _ | .divn _ => False
  | .jmpi _ | .jump _ | .jmzi _ | .jmpz _ => False

/-- The instructions that neither read nor write the accumulator (10_state R11). -/
def ignoresAcc : Instr → Prop
  | .nop | .halt | .jmpi _ | .jump _ | .copy _ | .cpyn _ => True
  | .lodi _ | .lod _ | .lodn _ | .andi _ | .and _ | .not | .cmpl _ | .cmpz _ => False
  | .addi _ | .add _ | .addn _ | .subi _ | .sub _ | .subn _ => False
  | .muli _ | .mul _ | .muln _ | .divi _ | .div _ | .divn _ => False
  | .sto _ | .ston _ | .jmzi _ | .jmpz _ => False

/-- Two states that differ in `changed` and the bookkeeping of the last result at most. -/
def agreeButChanged (s t : State) : Prop :=
  s.acc = t.acc ∧ s.pc = t.pc ∧ s.halted = t.halted ∧ s.code = t.code ∧ s.mem = t.mem

/-- The three descriptor words of COPY at `a` (45_block_copy R151). -/
def descriptorAt (a source target length : Int) (s : State) : Prop :=
  memRead a s = .ok source ∧ memRead (a + 1) s = .ok target ∧ memRead (a + 2) s = .ok length

/-- A block of `length` cells from `start` that COPY may touch (45_block_copy R154): no descriptor cell
is one of them and each of them is a cell of the Data Memory. -/
def blockIsLegal (a start length : Int) : Prop :=
  ∀ x, start ≤ x → x < start + length → 0 ≤ x ∧ x ≤ 511 ∧ x ≠ a ∧ x ≠ a + 1 ∧ x ≠ a + 2

/-- COPY at `a`, or CPYN through a cell that holds `a` (45_block_copy R157). -/
def copiesFrom (i : Instr) (a : Int) (s : State) : Prop :=
  i = .copy a ∨ ∃ p, i = .cpyn p ∧ memRead p s = .ok a

/-- The operations of a boot sequence after `clear()` (70_reset R209): an append, or a data write in
range. -/
def isLoadOp : HostOp → Prop
  | .appendCode _ => True
  | .setData a _ => 0 ≤ a ∧ a ≤ 511
  | .clear | .step | .getAccumulator | .getProgramCounter | .getData _ => False
  | .getChangedIndex | .isHalted | .getCode => False

/-- The words a sequence of host operations appends, in order. -/
def appendedWords (ops : List HostOp) : List CodeWord :=
  ops.filterMap fun op => match op with
    | .appendCode w => some w
    | _ => none

/-- The data writes among host operations, in order. -/
def dataWrites (ops : List HostOp) : List (Int × Word) :=
  ops.filterMap fun op => match op with
    | .setData a v => some (a, v)
    | _ => none

/-- The value `setData` writes last to an address, among data lines in order, else what was there. -/
def lastData (addr : Int) (before : Word) : List (Int × Word) → Word
  | [] => before
  | p :: rest => lastData addr (if p.1 = addr then p.2 else before) rest

end Sys2Proof.Machine

open Sys2Proof Sys2Proof.Machine

/-! ### Encoding -/

/-- 30_encoding R51: `pack` as a number, and `unpack` of it for every opcode and argument. -/
def Obligations.PackThenUnpack : Prop :=
  (∀ op a : Int, (pack op a).toNat = (op % 4294967296 * 4294967296 + a % 4294967296).toNat) ∧
  (∀ w, unpack w = ((w.extractLsb' 32 32).toNat, sext32 (w.extractLsb' 0 32))) ∧
  (∀ (op : Nat) (a : Int), op < 4294967296 → fits32 a → unpack (pack op a) = (op, a)) ∧
  pack 0x01 (-1) = 0x00000001FFFFFFFF#64

/-- Decode of encode gives every well-formed instruction back, whatever its argument (rests on
30_encoding sections 1 to 4; that NOP, NOT and HALT are emitted with argument 0 is R54, decision D20). -/
def Obligations.DecodeOfEncode : Prop :=
  ∀ i : Instr, i.wellFormed → decode (encode i) = .ok i

/-- What the decoder answers is well formed, has the word's opcode, and where the instruction has an
argument it is the word's, so that encoding it again gives the same word (rests on 30_encoding sections
1 to 3). -/
def Obligations.EncodeOfDecode : Prop :=
  ∀ (w : CodeWord) (i : Instr), decode w = .ok i →
    i.wellFormed ∧ i.opcode = opcodeField w ∧
    (i.argClass = .none → i.arg = 0) ∧
    (i.argClass ≠ .none → i.arg = argField w ∧ encode i = w)

/-- 30_encoding R55: the opcode map, row by row (opcode, mnemonic, argument class, instruction), and no
opcode outside it. -/
def Obligations.OpcodeMap : Prop :=
  (∀ row ∈ ([
      (0x00, "NOP", .none, fun _ => .nop), (0x01, "LODI", .immediateValue, .lodi),
      (0x02, "LOD", .directData, .lod), (0x03, "LODN", .indirectData, .lodn),
      (0x04, "STO", .directStore, .sto), (0x05, "STON", .indirectStore, .ston),
      (0x06, "JMPI", .immediateTarget, .jmpi), (0x07, "JUMP", .directTarget, .jump),
      (0x08, "JMZI", .immediateTarget, .jmzi), (0x09, "JMPZ", .directTarget, .jmpz),
      (0x0A, "ADDI", .immediateValue, .addi), (0x0B, "ADD", .directData, .add),
      (0x0C, "ADDN", .indirectData, .addn), (0x0D, "SUBI", .immediateValue, .subi),
      (0x0E, "SUB", .directData, .sub), (0x0F, "SUBN", .indirectData, .subn),
      (0x10, "MULI", .immediateValue, .muli), (0x11, "MUL", .directData, .mul),
      (0x12, "MULN", .indirectData, .muln), (0x13, "DIVI", .immediateValue, .divi),
      (0x14, "DIV", .directData, .div), (0x15, "DIVN", .indirectData, .divn),
      (0x16, "ANDI", .immediateValue, .andi), (0x17, "AND", .directData, .and),
      (0x18, "NOT", .none, fun _ => .not), (0x19, "CMPL", .directData, .cmpl),
      (0x1A, "CMPZ", .directData, .cmpz), (0x1D, "COPY", .descriptor, .copy),
      (0x1E, "CPYN", .descriptorPointer, .cpyn), (0x1F, "HALT", .none, fun _ => .halt)] :
      List (Nat × String × ArgClass × (Int → Instr))),
    ∀ a : Int, fits32 a →
      decode (pack row.1 a) = .ok (row.2.2.2 a) ∧ (row.2.2.2 a).mnemonic = row.2.1.toList ∧
      (row.2.2.2 a).argClass = row.2.2.1) ∧
  ∀ w : CodeWord, (∃ i, decode w = .ok i) → inOpcodeSet (opcodeField w)

/-- The decoder is total: a word outside the opcode set is rejected by name, whichever it is, and every
other decodes. The rejection names are the model's; that all 32 bits are compared is the spec's decision
D21 (rests on 30_encoding section 5). -/
def Obligations.DecoderIsTotal : Prop :=
  ∀ w : CodeWord,
    (inOpcodeSet (opcodeField w) → ∃ i, decode w = .ok i ∧ i.opcode = opcodeField w) ∧
    (opcodeField w = 0x1B ∨ opcodeField w = 0x1C → decode w = .error .reservedOpcode) ∧
    (0x20 ≤ opcodeField w → decode w = .error .undefinedOpcode)

/-- Words of 95_test_vectors section 2.1, written out, decode to what they stand for. -/
def Obligations.WrittenOutWordsDecode : Prop :=
  decode 0x00000001FFFFFFFF#64 = .ok (.lodi (-1)) ∧
  decode 0x0000000500000034#64 = .ok (.ston 52) ∧
  decode 0x0000000900000021#64 = .ok (.jmpz 33) ∧
  decode 0x00000010FFFFFFFD#64 = .ok (.muli (-3)) ∧
  decode 0x000000180000002A#64 = .ok .not ∧
  decode 0x0000001900000010#64 = .ok (.cmpl 16) ∧
  decode 0x0000001D00000064#64 = .ok (.copy 100) ∧
  decode 0x0000001FFFFFFFFF#64 = .ok .halt ∧
  decode 0x0000001C00000007#64 = .error .reservedOpcode ∧
  decode 0x0000010100000005#64 = .error .undefinedOpcode

/-! ### The step -/

/-- 40_step R81: a running engine executes `code[pc]`, and raises AccessFault and executes nothing where
`pc` is outside the populated range. -/
def Obligations.StepRunsTheFetchedInstruction : Prop :=
  ∀ s : State, s.halted = false →
    (∀ (k : Nat) (w : CodeWord) (i : Instr), value s.pc = k → s.code[k]? = some w →
      decode w = .ok i → step s = exec i s) ∧
    (value s.pc < 0 ∨ (s.codeSize : Int) ≤ value s.pc → step s = .next (afterFault s .access))

/-- A fetched word outside the opcode set raises IllegalOpcodeFault: the spec's decision D5 (rests on
30_encoding section 5 and 60_exceptions section 1). -/
def Obligations.UndefinedOpcodeFaults : Prop :=
  ∀ (s : State) (k : Nat) (w : CodeWord), s.halted = false → value s.pc = k →
    s.code[k]? = some w → ¬ inOpcodeSet (opcodeField w) →
    step s = .next (afterFault s .illegalOpcode)

/-- A step of a halted engine changes nothing but the model's record of its result: the spec's decision
D6 (rests on 40_step section 1; the record is log entry 2). -/
def Obligations.HaltedEngineStaysAsItIs : Prop :=
  ∀ s : State, s.halted = true → step s = .next { s with lastResult := some .alreadyHalted }

/-- Every step answers a next state, with one of the results of the table in 40_step section 1 and the
`halted` bit that goes with it; the table's last row is the spec's decision D6. -/
def Obligations.StepResultTable : Prop :=
  ∀ s : State, ∃ t : State, step s = .next t ∧
    ((s.halted = true ∧ t.lastResult = some .alreadyHalted ∧ t.halted = true) ∨
     (s.halted = false ∧ t.lastResult = some .running ∧ t.halted = false ∧
        ∃ i, fetchInstr s = .ok i ∧ i ≠ .halt) ∨
     (s.halted = false ∧ t.lastResult = some .halted ∧ t.halted = true ∧
        fetchInstr s = .ok .halt) ∨
     (s.halted = false ∧ t.halted = true ∧ ∃ f, t.lastResult = some (.fault f)))

/-- 60_exceptions R176: a step that raises a fault sets `halted`, returns the kind, and does nothing
else. -/
def Obligations.FaultEntry : Prop :=
  ∀ (s t : State) (f : Fault), step s = .next t → t.lastResult = some (.fault f) →
    t = afterFault s f

/-- 40_step R86: the pc rule. Every instruction that completes advances `pc` by 1, but the jumps, which
set it when they jump, and HALT, which adds 0 or 1; a faulting instruction does not change it. -/
def Obligations.PcRule : Prop :=
  ∀ (s t : State) (i : Instr), s.halted = false → s.codeSize ≤ Config.codeCapacity →
    fetchInstr s = .ok i → step s = .next t →
    ((∃ f, t.lastResult = some (.fault f)) → t.pc = s.pc) ∧
    (¬ (∃ f, t.lastResult = some (.fault f)) →
      match i with
      | .jmpi a => value t.pc = a
      | .jump a => memRead a s = .ok (value t.pc)
      | .jmzi a => value t.pc = if value s.acc = 0 then a else value s.pc + 1
      | .jmpz a =>
        if value s.acc = 0 then memRead a s = .ok (value t.pc) else value t.pc = value s.pc + 1
      | .halt => value t.pc = value s.pc + value haltPcAdvance ∧
          (value haltPcAdvance = 0 ∨ value haltPcAdvance = 1)
      | _ => value t.pc = value s.pc + 1)

/-- 20_memory R43: no instruction, no step and no host data write changes the Code Store. -/
def Obligations.StoresNeverAffectFetch : Prop :=
  (∀ (i : Instr) (s t : State), exec i s = .next t → t.code = s.code) ∧
  (∀ s t : State, step s = .next t → t.code = s.code) ∧
  (∀ (a : Int) (v : Word) (s : State), (setData a v s).1.code = s.code)

/-- Every step keeps the invariant: the ranges of 10_state section 1, the result table of 40_step
section 1, and the model's canonical memory (log entry 6). -/
def Obligations.StepKeepsInvariant : Prop :=
  ∀ s t : State, s.Inv → step s = .next t → t.Inv

/-- The reset state meets the invariant of `StepKeepsInvariant`. -/
def Obligations.ResetMeetsInvariant : Prop := State.reset.Inv

/-- Every host operation keeps the invariant of `StepKeepsInvariant` (rests on 70_reset section 2). -/
def Obligations.HostCallsKeepInvariant : Prop :=
  ∀ (op : HostOp) (s t : State) (r : HostReply), s.Inv → hostCall op s = .next (t, r) → t.Inv

/-- Only `clear()` takes the engine out of the halted state (rests on 60_exceptions sections 4 and 6;
that `clear()` resets the bit is the spec's decision D14). -/
def Obligations.HaltedLeftOnlyByClear : Prop :=
  ∀ (op : HostOp) (s t : State) (r : HostReply), s.halted = true →
    hostCall op s = .next (t, r) → t.halted = decide (op ≠ .clear)

/-- The accumulator changes only under the instructions that 10_state section 2 lists as its writers. -/
def Obligations.AccChangedOnlyByItsWriters : Prop :=
  ∀ (i : Instr) (s t : State), ¬ writesAcc i → exec i s = .next t → t.acc = s.acc

/-- NOP, HALT, JMPI, JUMP, COPY and CPYN do the same whatever the accumulator holds (10_state section 2). -/
def Obligations.SixInstructionsIgnoreAcc : Prop :=
  ∀ (i : Instr) (s t : State) (w : Word), ignoresAcc i → exec i s = .next t →
    exec i { s with acc := w } = .next { t with acc := w }

/-- Only STO, STON, COPY and CPYN change a cell of the Data Memory or the changed index (10_state
sections 6 and 8). -/
def Obligations.DataChangedOnlyByStores : Prop :=
  ∀ (i : Instr) (s t : State), ¬ storesData i → exec i s = .next t →
    (∀ a : Int, memRead a t = memRead a s) ∧ t.changed = s.changed

/-- No step reads `changed` or the model's record of the last result: what a step does to everything
else does not depend on them (10_state sections 6 and 9; the record is log entry 2). -/
def Obligations.ChangedIndexIsNeverRead : Prop :=
  ∀ s₁ s₂ t₁ t₂ : State, agreeButChanged s₁ s₂ → step s₁ = .next t₁ → step s₂ = .next t₂ →
    agreeButChanged t₁ t₂

/-! ### The access primitives and the addressing modes -/

/-- 20_memory R33: CodeRead. -/
def Obligations.CodeReadRule : Prop :=
  ∀ (i : Int) (s : State),
    (∀ k : Nat, i = k → ∀ h : k < s.codeSize, codeRead i s = .ok s.code[k]) ∧
    (i < 0 ∨ (s.codeSize : Int) ≤ i → codeRead i s = .error .access)

/-- 20_memory R34: MemRead. -/
def Obligations.MemReadRule : Prop :=
  ∀ (addr : Int) (s : State),
    (0 ≤ addr ∧ addr ≤ 511 → memRead addr s = .ok (value (s.mem.read addr.toNat)) ∧
      fits32 (value (s.mem.read addr.toNat))) ∧
    (¬ (0 ≤ addr ∧ addr ≤ 511) → memRead addr s = .error .memoryIndex)

/-- 20_memory R35: MemWrite, through the reads before and after it. -/
def Obligations.MemWriteRule : Prop :=
  ∀ (addr v : Int) (s : State), fits32 v →
    (0 ≤ addr ∧ addr ≤ 511 → ∃ t, memWrite addr v s = .ok t ∧
      (∀ b, memRead b t = if b = addr then .ok v else memRead b s) ∧
      t = { s with mem := t.mem, changed := addr }) ∧
    (¬ (0 ≤ addr ∧ addr ≤ 511) → memWrite addr v s = .error .memoryIndex)

/-- The operand of each addressing mode, and its faults in order (rests on 40_step section 2). -/
def Obligations.OperandOfEachMode : Prop :=
  ∀ (arg : Int) (s : State),
    operand .immediate arg s = .ok arg ∧
    (0 ≤ arg ∧ arg ≤ 511 →
      operand .direct arg s = .ok (value (s.mem.read arg.toNat)) ∧
      (∀ p, p = value (s.mem.read arg.toNat) →
        (0 ≤ p ∧ p ≤ 511 → operand .indirect arg s = .ok (value (s.mem.read p.toNat))) ∧
        (¬ (0 ≤ p ∧ p ≤ 511) → operand .indirect arg s = .error .memoryIndex))) ∧
    (¬ (0 ≤ arg ∧ arg ≤ 511) →
      operand .direct arg s = .error .memoryIndex ∧
      operand .indirect arg s = .error .memoryIndex)

/-- Each direct or indirect form is its simpler form on the cell at its argument, for all the delegation
chains of 40_step section 2; that the SUB, SUBN, MUL and MULN rows follow the same rule is the spec's own
reading. -/
def Obligations.DelegationChains : Prop :=
  ∀ (form simpler : Int → Instr),
    (form, simpler) ∈ ([(.lodn, .lod), (.lod, .lodi), (.ston, .sto), (.jump, .jmpi), (.jmpz, .jmzi),
      (.addn, .add), (.add, .addi), (.subn, .sub), (.sub, .subi), (.muln, .mul), (.mul, .muli),
      (.divn, .div), (.div, .divi), (.and, .andi), (.cpyn, .copy)] : List ((Int → Instr) × (Int → Instr))) →
    ∀ (a : Int) (s : State),
      (∀ v, memRead a s = .ok v → exec (form a) s = exec (simpler v) s) ∧
      (∀ f, memRead a s = .error f → exec (form a) s = .next (afterFault s f))

/-- Two canonical memories that read alike in every cell are equal (the model's representation, log
entry 6; rests on 10_state section 8). -/
def Obligations.CanonicalMemoriesAreDetermined : Prop :=
  ∀ m n : Memory, m.wf → n.wf → (∀ a, a < 512 → m.read a = n.read a) → m = n

/-! ### Loads, stores and jumps -/

/-- 41_load_store R100, R101, R102: LODI, LOD and LODN, their encodings, their effect (nothing but `acc`
and `pc` changes) and their faults. -/
def Obligations.LoadsComplete : Prop :=
  (∀ a : Int, encode (.lodi a) = pack 0x01 a ∧ encode (.lod a) = pack 0x02 a ∧
    encode (.lodn a) = pack 0x03 a) ∧
  ∀ (m : Mode) (arg : Int) (s : State), s.halted = false → fits32 arg →
    (∀ v, operand m arg s = .ok v → ∃ t, exec (loadForm m arg) s = .next t ∧
      value t.acc = v ∧ t = accWritten s v) ∧
    (∀ f, operand m arg s = .error f → exec (loadForm m arg) s = .next (afterFault s f))

/-- 41_load_store R103, R104: STO writes `acc` at its argument, STON at the address the cell at its
argument holds; nothing but that cell, `changed` and `pc` changes. The address stored to is `addr`. -/
def Obligations.StoresComplete : Prop :=
  (∀ a : Int, encode (.sto a) = pack 0x04 a ∧ encode (.ston a) = pack 0x05 a) ∧
  (∀ (i : Instr) (addr : Int) (s : State), s.halted = false →
    (i = .sto addr ∨ ∃ a, i = .ston a ∧ memRead a s = .ok addr) →
    (0 ≤ addr ∧ addr ≤ 511 → ∃ t, exec i s = .next t ∧
      (∀ b, memRead b t = if b = addr then .ok (value s.acc) else memRead b s) ∧
      t = { s with mem := t.mem, changed := addr, pc := s.pc + 1, lastResult := some .running }) ∧
    (¬ (0 ≤ addr ∧ addr ≤ 511) → exec i s = .next (afterFault s .memoryIndex))) ∧
  ∀ (a : Int) (s : State), ¬ (0 ≤ a ∧ a ≤ 511) →
    exec (.ston a) s = .next (afterFault s .memoryIndex)

/-- 42_jump R110, R111, R112: JMPI, JUMP and JMZI write their target to `pc` unchecked (JMZI when `acc`
is 0, else it advances); nothing else changes. A target outside the Code Store faults in the next step. -/
def Obligations.JumpsComplete : Prop :=
  (∀ a : Int, encode (.jmpi a) = pack 0x06 a ∧ encode (.jump a) = pack 0x07 a ∧
    encode (.jmzi a) = pack 0x08 a) ∧
  ∀ (arg : Int) (s : State), s.halted = false →
    exec (.jmpi arg) s = .next (pcWritten s (wrap32 arg)) ∧
    exec (.jmzi arg) s =
      .next (pcWritten s (if value s.acc = 0 then wrap32 arg else s.pc + 1)) ∧
    (∀ v, memRead arg s = .ok v →
      exec (.jump arg) s = .next (pcWritten s (wrap32 v)) ∧ value (wrap32 v) = v) ∧
    (¬ (0 ≤ arg ∧ arg ≤ 511) → exec (.jump arg) s = .next (afterFault s .memoryIndex)) ∧
    (fits32 arg → value (wrap32 arg) = arg ∧ (arg < 0 ∨ (s.codeSize : Int) ≤ arg →
      step (pcWritten s (wrap32 arg)) = .next (afterFault (pcWritten s (wrap32 arg)) .access)))

/-- JMPZ: the target is read first; then it is written to `pc` when `acc` is 0, else `pc` advances;
nothing else changes. That a bad address faults also when the jump would not be taken is the spec's own
derivation (rests on 42_jump and 40_step section 2). -/
def Obligations.JmpzCompletes : Prop :=
  (∀ a : Int, encode (.jmpz a) = pack 0x09 a) ∧
  ∀ (arg : Int) (s : State), s.halted = false →
    (∀ v, memRead arg s = .ok v → value (wrap32 v) = v ∧
      exec (.jmpz arg) s =
        .next (pcWritten s (if value s.acc = 0 then wrap32 v else s.pc + 1))) ∧
    (¬ (0 ≤ arg ∧ arg ≤ 511) → exec (.jmpz arg) s = .next (afterFault s .memoryIndex))

/-! ### Arithmetic -/

/-- `wrap32` is the reduction modulo 2^32 into the signed range, and the identity on that range (rests
on 00_scope section 5; the width is the spec's decision D1). -/
def Obligations.WrapIsReductionModulo : Prop :=
  ∀ x : Int,
    value (wrap32 x) = (if x % 4294967296 < 2147483648 then x % 4294967296
      else x % 4294967296 - 4294967296) ∧
    (fits32 x → value (wrap32 x) = x)

/-- ADDI, ADD, ADDN, SUBI, SUB, SUBN, MULI, MUL, MULN: the exact result of `acc` and the operand,
wrapped; nothing but `acc` and `pc` changes; a fault of the operand's address is the only one. That the
result wraps is the spec's decision D1 (rests on 43_arithmetic sections 1 to 4). -/
def Obligations.AddSubMulComplete : Prop :=
  ∀ (m : Mode) (arg : Int) (s : State), s.halted = false →
    (∀ v, operand m arg s = .ok v →
      exec (addForm m arg) s = .next (accWritten s (value s.acc + v)) ∧
      exec (subForm m arg) s = .next (accWritten s (value s.acc - v)) ∧
      exec (mulForm m arg) s = .next (accWritten s (value s.acc * v))) ∧
    (∀ f, operand m arg s = .error f →
      exec (addForm m arg) s = .next (afterFault s f) ∧
      exec (subForm m arg) s = .next (afterFault s f) ∧
      exec (mulForm m arg) s = .next (afterFault s f))

/-- DIVI, DIV, DIVN with a divisor that is not 0: `acc` becomes the quotient rounded toward zero, given
by the remainder's sign and size, wrapped; nothing but `acc` and `pc` changes. Rounding and wrapping are
the spec's decisions D1 and D2 (rests on 43_arithmetic sections 1 and 5). -/
def Obligations.DivisionCompletes : Prop :=
  ∀ (m : Mode) (arg v : Int) (s : State), s.halted = false → operand m arg s = .ok v → v ≠ 0 →
    ∃ q r : Int, value s.acc = v * q + r ∧ r.natAbs < v.natAbs ∧ 0 ≤ r * value s.acc ∧
      exec (divForm m arg) s = .next (accWritten s q)

/-- 60_exceptions R172: DIVI, DIV and DIVN raise ArithmeticFault when the divisor is 0, leaving the
accumulator unchanged, and no other arithmetic event raises it. -/
def Obligations.ZeroDivisorFaults : Prop :=
  (∀ (m : Mode) (arg : Int) (s : State), operand m arg s = .ok 0 →
    exec (divForm m arg) s = .next (afterFault s .arithmetic)) ∧
  ∀ (i : Instr) (s t : State), exec i s = .next t → t.lastResult = some (.fault .arithmetic) →
    ∃ m arg, i = divForm m arg ∧ operand m arg s = .ok 0

/-- 60_exceptions R174: every instruction whose argument is a data address raises MemoryIndexFault for
an address outside `[0, 511]`, the indirect forms for such a pointer too, COPY for a descriptor that
runs past the end; so do `MemRead` and `MemWrite` themselves. -/
def Obligations.DataAddressFaults : Prop :=
  (∀ (form : Int → Instr), form ∈ ([.lod, .lodn, .sto, .ston, .jump, .jmpz, .add, .addn, .sub, .subn,
      .mul, .muln, .div, .divn, .and, .cmpl, .cmpz, .copy, .cpyn] : List (Int → Instr)) →
    ∀ (a : Int) (s : State), ¬ (0 ≤ a ∧ a ≤ 511) →
      exec (form a) s = .next (afterFault s .memoryIndex)) ∧
  (∀ (form : Int → Instr), form ∈ ([.lodn, .ston, .addn, .subn, .muln, .divn, .cpyn] :
      List (Int → Instr)) →
    ∀ (a p : Int) (s : State), memRead a s = .ok p → ¬ (0 ≤ p ∧ p ≤ 511) →
      exec (form a) s = .next (afterFault s .memoryIndex)) ∧
  (∀ (a : Int) (s : State), a = 510 ∨ a = 511 →
      exec (.copy a) s = .next (afterFault s .memoryIndex)) ∧
  (∀ (a v : Int) (s : State), ¬ (0 ≤ a ∧ a ≤ 511) →
      memRead a s = .error .memoryIndex ∧ memWrite a v s = .error .memoryIndex)

/-! ### Logic, compare, NOP and HALT -/

/-- 44_logic_compare R140, R141, R142: ANDI, AND and NOT write exactly 0 or 1 by truth value; nothing
but `acc` and `pc` changes. -/
def Obligations.LogicCompletes : Prop :=
  (∀ a : Int, encode (.andi a) = pack 0x16 a ∧ encode (.and a) = pack 0x17 a) ∧
  encode .not = pack 0x18 0 ∧ (∀ a : Int, decode (pack 0x18 a) = .ok .not) ∧
  ∀ (arg : Int) (s : State), s.halted = false →
    exec (.andi arg) s = .next (accWritten s (if arg ≠ 0 ∧ value s.acc ≠ 0 then 1 else 0)) ∧
    (∀ v, memRead arg s = .ok v →
      exec (.and arg) s = .next (accWritten s (if v ≠ 0 ∧ value s.acc ≠ 0 then 1 else 0))) ∧
    (¬ (0 ≤ arg ∧ arg ≤ 511) → exec (.and arg) s = .next (afterFault s .memoryIndex)) ∧
    exec .not s = .next (accWritten s (if value s.acc = 0 then 1 else 0))

/-- 44_logic_compare R143, R144: CMPL and CMPZ write 1 when the cell is negative, or is 0, else 0,
without reading `acc`; nothing but `acc` and `pc` changes. -/
def Obligations.ComparesComplete : Prop :=
  (∀ a : Int, encode (.cmpl a) = pack 0x19 a ∧ encode (.cmpz a) = pack 0x1A a) ∧
  ∀ (arg : Int) (s : State), s.halted = false →
    (∀ v, memRead arg s = .ok v →
      exec (.cmpl arg) s = .next (accWritten s (if v < 0 then 1 else 0)) ∧
      exec (.cmpz arg) s = .next (accWritten s (if v = 0 then 1 else 0))) ∧
    (¬ (0 ≤ arg ∧ arg ≤ 511) →
      exec (.cmpl arg) s = .next (afterFault s .memoryIndex) ∧
      exec (.cmpz arg) s = .next (afterFault s .memoryIndex))

/-- 46_nop_halt R160: NOP changes `pc` only. -/
def Obligations.NopCompletes : Prop :=
  encode .nop = 0#64 ∧ (∀ a : Int, decode (pack 0x00 a) = .ok .nop) ∧
  ∀ s : State, s.halted = false → exec .nop s = .next (pcWritten s (s.pc + 1))

/-- HALT sets `halted` and adds the parameter that the spec's decision D4 leaves open (log entry 5), 0 or
1, to `pc`; nothing else changes; a step after it executes nothing (rests on 46_nop_halt and 40_step
section 1). That this next step gives AlreadyHalted is the spec's decision D6 (log entry 16); the record
of the results is the model's, log entry 2, and so is that `exec`, called on a halted state, has the same
effect, log entry 9. -/
def Obligations.HaltCompletes : Prop :=
  encode .halt = 0x0000001F00000000#64 ∧ (∀ a : Int, decode (pack 0x1F a) = .ok .halt) ∧
  (haltPcAdvance = 0 ∨ haltPcAdvance = 1) ∧
  ∀ s : State, exec .halt s =
      .next { s with halted := true, pc := s.pc + haltPcAdvance, lastResult := some .halted } ∧
    ∀ t, exec .halt s = .next t → step t = .next { t with lastResult := some .alreadyHalted }

/-! ### Block copy -/

/-- 45_block_copy R151: the descriptor is the three words at `a`, `a + 1`, `a + 2`; an `a` outside
`[0, 509]` raises MemoryIndexFault. -/
def Obligations.CopyReadsItsDescriptor : Prop :=
  ∀ (a : Int) (s : State),
    (0 ≤ a ∧ a ≤ 509 → ∃ source target length, descriptorAt a source target length s ∧
      readDescriptor a s = .ok (source, target, length) ∧
      fits32 source ∧ fits32 target ∧ fits32 length) ∧
    (¬ (0 ≤ a ∧ a ≤ 509) → exec (.copy a) s = .next (afterFault s .memoryIndex))

/-- COPY and CPYN with a legal descriptor of length at least 1 move the block as if through a buffer:
every target cell gets the old content of its source cell, every other cell keeps its own, `changed` is
the cell written last, `pc` advances and nothing else changes. Which descriptors are legal at the edges
is the spec's decisions D9 and D12 (rests on 45_block_copy sections 1 and 2). -/
def Obligations.CopyMovesTheBlock : Prop :=
  ∀ (i : Instr) (a source target length : Int) (s : State), s.halted = false →
    copiesFrom i a s → descriptorAt a source target length s → 1 ≤ length →
    blockIsLegal a source length → blockIsLegal a target length →
    ∃ t, exec i s = .next t ∧
      (∀ k, 0 ≤ k → k < length → memRead (target + k) t = memRead (source + k) s) ∧
      (∀ b, ¬ (target ≤ b ∧ b < target + length) → memRead b t = memRead b s) ∧
      t = { s with mem := t.mem, pc := s.pc + 1, lastResult := some .running,
                   changed := if source < target then target else target + length - 1 }

/-- COPY and CPYN with a negative length, or with a block that takes in a descriptor cell or leaves the
Data Memory, raise RangeFault. The edges and the negative length are the spec's decisions D9, D11 and
D12 (rests on 45_block_copy sections 1 to 3). -/
def Obligations.IllegalCopyFaults : Prop :=
  ∀ (i : Instr) (a source target length : Int) (s : State),
    copiesFrom i a s → descriptorAt a source target length s →
    (length < 0 ∨ 1 ≤ length ∧ ¬ (blockIsLegal a source length ∧ blockIsLegal a target length)) →
    exec i s = .next (afterFault s .range)

/-- COPY and CPYN of length 0 only advance `pc`, whatever source and target are: the spec's decision D10
(rests on 45_block_copy section 2). -/
def Obligations.EmptyCopyOnlyAdvances : Prop :=
  ∀ (i : Instr) (a source target : Int) (s : State), s.halted = false →
    copiesFrom i a s → descriptorAt a source target 0 s →
    exec i s = .next (pcWritten s (s.pc + 1))

/-- 45_block_copy R157: CPYN is COPY with the descriptor address read from the cell at its argument. -/
def Obligations.CpynIsCopyThroughAPointer : Prop :=
  (∀ p : Int, encode (.cpyn p) = pack 0x1E p) ∧
  ∀ (p : Int) (s : State),
    (∀ a, memRead p s = .ok a → exec (.cpyn p) s = exec (.copy a) s) ∧
    (¬ (0 ≤ p ∧ p ≤ 511) → exec (.cpyn p) s = .next (afterFault s .memoryIndex))

/-! ### Reset and the host interface -/

/-- The values after reset, that `clear()` gives them from every state, and that stepping an engine with
nothing loaded faults at once (rests on 10_state section 11, 70_reset section 1, 40_step section 1;
`halted` and `changed` are the spec's decisions D13 and D14, the empty record of the last result is the
model's, log entry 2). -/
def Obligations.ResetValues : Prop :=
  (∀ s : State, s.clear = State.reset) ∧
  value State.reset.acc = 0 ∧ value State.reset.pc = 0 ∧
  (∀ a : Int, 0 ≤ a → a ≤ 511 → memRead a State.reset = .ok 0) ∧
  State.reset.codeSize = 0 ∧ (∀ i : Int, codeRead i State.reset = .error .access) ∧
  State.reset.halted = false ∧ State.reset.changed = -1 ∧ State.reset.lastResult = none ∧
  step State.reset = .next (afterFault State.reset .access)

/-- `appendCode`: appends while loading, reports a load error when 256 words are in, has no transition
after a step. The last two are the spec's decisions D15 and D16; that the loading phase shows in the
record of the last result is the model's, log entry 12 (rests on 70_reset section 2). -/
def Obligations.AppendCodeRule : Prop :=
  ∀ (w : CodeWord) (s : State),
    (s.lastResult = none → s.codeSize < 256 →
      hostCall (.appendCode w) s = .next ({ s with code := s.code ++ [w] }, .done)) ∧
    (s.lastResult = none → 256 ≤ s.codeSize → hostCall (.appendCode w) s = .next (s, .loadError)) ∧
    (∀ t u : State, step t = .next u → hostCall (.appendCode w) u = .refused .appendAfterStep)

/-- `setData` and `getData` in and out of range, in any state, halted or not. Out of range they report
to the host and change nothing: the spec's decision D17 (rests on 70_reset section 2). -/
def Obligations.SetDataGetDataRule : Prop :=
  ∀ (a : Int) (v : Word) (s : State),
    (0 ≤ a ∧ a ≤ 511 → ∃ t, hostCall (.setData a v) s = .next (t, .done) ∧
      t = { s with mem := t.mem, changed := a } ∧
      hostCall (.getData a) t = .next (t, .number (value v)) ∧
      (∀ b, b ≠ a → getData b t = getData b s)) ∧
    (¬ (0 ≤ a ∧ a ≤ 511) → hostCall (.setData a v) s = .next (s, .memoryIndexError) ∧
      hostCall (.getData a) s = .next (s, .memoryIndexError))

/-- 10_state R20: each accessor returns its value and changes nothing. -/
def Obligations.AccessorsChangeNothing : Prop :=
  ∀ s : State,
    hostCall .getAccumulator s = .next (s, .number (value s.acc)) ∧
    hostCall .getProgramCounter s = .next (s, .number (value s.pc)) ∧
    (∀ a : Int, 0 ≤ a ∧ a ≤ 511 →
      hostCall (.getData a) s = .next (s, .number (value (s.mem.read a.toNat)))) ∧
    (∀ a : Int, ¬ (0 ≤ a ∧ a ≤ 511) → hostCall (.getData a) s = .next (s, .memoryIndexError)) ∧
    hostCall .getChangedIndex s = .next (s, .number s.changed) ∧
    hostCall .isHalted s = .next (s, .flag s.halted) ∧
    hostCall .getCode s = .next (s, .codeWords s.code)

/-- 70_reset R209: after `clear()` and any mix of appends and data writes, the program occupies
`code[0 .. n - 1]`, every cell holds the last value written to it and every other cell 0, and `pc = 0`,
`acc = 0`. -/
def Obligations.BootSequenceLoadsTheProgram : Prop :=
  ∀ (s : State) (ops : List HostOp), (∀ op ∈ ops, isLoadOp op) → (appendedWords ops).length ≤ 256 →
    ∃ t replies, hostCalls (.clear :: ops) s = .next (t, replies) ∧ (∀ r ∈ replies, r = .done) ∧
      t.code = appendedWords ops ∧ t.pc = 0 ∧ t.acc = 0 ∧
      ∀ a : Int, 0 ≤ a → a ≤ 511 → memRead a t = .ok (value (lastData a 0 (dataWrites ops)))

/-- A run that ends stays where it ended (70_reset section 3): its last result is not `Running`, the
engine is halted, and a further step changes nothing but the model's record of its result. -/
def Obligations.FinishedRunIsFinal : Prop :=
  ∀ (n : Nat) (s t : State), run n s = some t →
    t.lastResult ≠ some .running ∧ t.halted = true ∧
    step t = .next { t with lastResult := some .alreadyHalted }

/-! ### Text formats -/

/-- Loading the text of an image (rests on 30_encoding section 7, 70_reset section 2): it is one `appendCode` for each code line and one
`setData` for each data line, in order. -/
def Obligations.LoadingAnImage : Prop :=
  ∀ (program : List Instr) (data : List (Int × Int)), program.length ≤ 256 →
    (∀ i ∈ program, i.wellFormed) → (∀ p ∈ data, (0 ≤ p.1 ∧ p.1 ≤ 511) ∧ fits32 p.2) →
    ∃ t replies, load (Image.text ⟨program.map imageLine, data⟩) State.reset = .next (t, .loaded) ∧
      hostCalls ((program.map fun i => .appendCode (pack i.opcode i.arg)) ++
        data.map fun p => .setData p.1 (wrap32 p.2)) State.reset = .next (t, replies) ∧
      t.code = program.map encode

/-- Assembling: a source text of code lines, `ENDCODE` and data lines assembles to the image whose code
lines are the opcodes and arguments (rests on 30_encoding sections 6 and 7). That a program of more than
256 instructions assembles too is the model's choice, log entry 26. -/
def Obligations.AssemblingASource : Prop :=
  ∀ (program : List Instr) (data : List (Int × Int)),
    (∀ i ∈ program, i.wellFormed) → (∀ p ∈ data, fits32 p.1 ∧ fits32 p.2) →
    assemble (program.map instrText ++ endcode :: data.map pairLine) =
      .ok ⟨program.map fun i => (i.opcode, i.arg), data⟩
end

