-- ==== Sys2Proof/Laws/State.lean ====
section
/-! SUPPORT. One lemma per field and update of the state, so that no proof unfolds a record update. -/

namespace Sys2Proof.Machine

section
variable (s : State) (v : Int) (f : Fault)

@[simp] theorem setAcc_acc : (s.setAcc v).acc = wrap32 v := rfl
@[simp] theorem setAcc_pc : (s.setAcc v).pc = s.pc := rfl
@[simp] theorem setAcc_halted : (s.setAcc v).halted = s.halted := rfl
@[simp] theorem setAcc_changed : (s.setAcc v).changed = s.changed := rfl
@[simp] theorem setAcc_code : (s.setAcc v).code = s.code := rfl
@[simp] theorem setAcc_mem : (s.setAcc v).mem = s.mem := rfl
@[simp] theorem setAcc_lastResult : (s.setAcc v).lastResult = s.lastResult := rfl

@[simp] theorem advance_acc : s.advance.acc = s.acc := rfl
@[simp] theorem advance_pc : s.advance.pc = s.pc + 1 := rfl
@[simp] theorem advance_halted : s.advance.halted = s.halted := rfl
@[simp] theorem advance_changed : s.advance.changed = s.changed := rfl
@[simp] theorem advance_code : s.advance.code = s.code := rfl
@[simp] theorem advance_mem : s.advance.mem = s.mem := rfl
@[simp] theorem advance_lastResult : s.advance.lastResult = s.lastResult := rfl

@[simp] theorem jumpTo_acc : (s.jumpTo v).acc = s.acc := rfl
@[simp] theorem jumpTo_pc : (s.jumpTo v).pc = wrap32 v := rfl
@[simp] theorem jumpTo_halted : (s.jumpTo v).halted = s.halted := rfl
@[simp] theorem jumpTo_changed : (s.jumpTo v).changed = s.changed := rfl
@[simp] theorem jumpTo_code : (s.jumpTo v).code = s.code := rfl
@[simp] theorem jumpTo_mem : (s.jumpTo v).mem = s.mem := rfl
@[simp] theorem jumpTo_lastResult : (s.jumpTo v).lastResult = s.lastResult := rfl

@[simp] theorem takeFault_acc : (s.takeFault f).acc = s.acc := rfl
@[simp] theorem takeFault_pc : (s.takeFault f).pc = s.pc := rfl
@[simp] theorem takeFault_halted : (s.takeFault f).halted = true := rfl
@[simp] theorem takeFault_changed : (s.takeFault f).changed = s.changed := rfl
@[simp] theorem takeFault_code : (s.takeFault f).code = s.code := rfl
@[simp] theorem takeFault_mem : (s.takeFault f).mem = s.mem := rfl
@[simp] theorem takeFault_lastResult : (s.takeFault f).lastResult = some (.fault f) := rfl

@[simp] theorem completed_acc : s.completed.acc = s.acc := rfl
@[simp] theorem completed_pc : s.completed.pc = s.pc := rfl
@[simp] theorem completed_halted : s.completed.halted = s.halted := rfl
@[simp] theorem completed_changed : s.completed.changed = s.changed := rfl
@[simp] theorem completed_code : s.completed.code = s.code := rfl
@[simp] theorem completed_mem : s.completed.mem = s.mem := rfl
@[simp] theorem completed_lastResult :
    s.completed.lastResult = some (if s.halted then .halted else .running) := rfl

@[simp] theorem stayHalted_acc : s.stayHalted.acc = s.acc := rfl
@[simp] theorem stayHalted_pc : s.stayHalted.pc = s.pc := rfl
@[simp] theorem stayHalted_halted : s.stayHalted.halted = s.halted := rfl
@[simp] theorem stayHalted_changed : s.stayHalted.changed = s.changed := rfl
@[simp] theorem stayHalted_code : s.stayHalted.code = s.code := rfl
@[simp] theorem stayHalted_mem : s.stayHalted.mem = s.mem := rfl
@[simp] theorem stayHalted_lastResult : s.stayHalted.lastResult = some .alreadyHalted := rfl

theorem clear_eq_reset : s.clear = State.reset := rfl

end

end Sys2Proof.Machine
end

