-- ==== Sys2Proof/Laws/Ops.lean ====
section
/-! SUPPORT. One lemma per shared operation that says all it can do; proofs cite these instead of unfolding the operation. -/

namespace Sys2Proof.Machine

theorem memRead_of_index {a : Int} {s : State} (h : isDataIndex a) :
    memRead a s = .ok (value (s.mem.read a.toNat)) := if_pos h

theorem memRead_of_not_index {a : Int} {s : State} (h : ¬ isDataIndex a) :
    memRead a s = .error .memoryIndex := if_neg h

theorem memRead_ok {a v : Int} {s : State} (h : memRead a s = .ok v) :
    isDataIndex a ∧ v = value (s.mem.read a.toNat) := by
  unfold memRead at h
  split at h
  · exact ⟨‹_›, by cases h; rfl⟩
  · cases h

/-- A data read depends on the Data Memory alone. -/
theorem memRead_congr {a : Int} {s t : State} (h : s.mem = t.mem) : memRead a s = memRead a t := by
  simp [memRead, h]

theorem memWrite_of_index {a v : Int} {s : State} (h : isDataIndex a) :
    memWrite a v s = .ok { s with mem := s.mem.write a.toNat (wrap32 v), changed := a } := if_pos h

theorem memWrite_ok {a v : Int} {s t : State} (h : memWrite a v s = .ok t) :
    isDataIndex a ∧ t = { s with mem := s.mem.write a.toNat (wrap32 v), changed := a } := by
  unfold memWrite at h
  split at h
  · exact ⟨‹_›, by cases h; rfl⟩
  · cases h

theorem memWrite_error {a v : Int} {s : State} {f : Fault} (h : memWrite a v s = .error f) :
    ¬ isDataIndex a ∧ f = .memoryIndex := by
  unfold memWrite at h
  split at h
  · cases h
  · exact ⟨‹_›, by cases h; rfl⟩

@[simp] theorem wrap32_value (w : Word) : wrap32 (value w) = w := by simp [wrap32, value]

/-- A wrapped value that fits 32 bits is itself (00_scope section 5). -/
theorem value_wrap32 {x : Int} (h : fits32 x) : value (wrap32 x) = x := by
  obtain ⟨h1, h2⟩ := h
  simp only [value, wrap32, BitVec.toInt_ofInt]
  rw [Int.bmod_eq_of_le] <;> omega

theorem fits32_value (w : Word) : fits32 (value w) := by
  have h1 := BitVec.le_toInt w
  have h2 := BitVec.toInt_lt (x := w)
  simp only [value]; constructor <;> omega

/-- The step of an instruction ends in one of two ways: its procedure's state, completed, or the state
before it with the fault taken. -/
theorem attempt_cases {s t : State} {r : Except Fault State} (h : attempt s r = .next t) :
    (∃ u, r = .ok u ∧ t = u.completed) ∨ (∃ f, r = .error f ∧ t = s.takeFault f) := by
  cases r with
  | ok u => cases h; exact .inl ⟨u, rfl, rfl⟩
  | error f => cases h; exact .inr ⟨f, rfl, rfl⟩

theorem attempt_answers_next (s : State) (r : Except Fault State) : ∃ t, attempt s r = .next t := by
  cases r with
  | ok u => exact ⟨_, rfl⟩
  | error f => exact ⟨_, rfl⟩

/-- A data read after a data write: the written value at its own address, every other address as
before, out of range ones too. -/
theorem memRead_memWrite {a v : Int} {s t : State} (h : memWrite a v s = .ok t) (b : Int) :
    memRead b t = if b = a then .ok (value (wrap32 v)) else memRead b s := by
  obtain ⟨ha, rfl⟩ := memWrite_ok h
  by_cases hb : isDataIndex b
  · rw [memRead_of_index hb, memRead_of_index hb]
    simp only [read_write]
    by_cases hab : b = a
    · simp [hab]
    · rw [if_neg (by have := ha.1; have := hb.1; omega), if_neg hab]
  · rw [if_neg (show b ≠ a from fun e => hb (e ▸ ha)), memRead_of_not_index hb, memRead_of_not_index hb]

theorem delegate_ok {p : Int → State → Except Fault State} {a : Int} {s t : State}
    (h : delegate p a s = .ok t) : ∃ v, memRead a s = .ok v ∧ p v s = .ok t := by
  unfold delegate at h
  split at h
  · exact ⟨_, ‹_›, h⟩
  · cases h

theorem delegate_error {p : Int → State → Except Fault State} {a : Int} {s : State} {f : Fault}
    (h : delegate p a s = .error f) :
    memRead a s = .error f ∨ ∃ v, memRead a s = .ok v ∧ p v s = .error f := by
  unfold delegate at h
  split at h
  · exact .inr ⟨_, ‹_›, h⟩
  · exact .inl (by cases h; assumption)

end Sys2Proof.Machine
end

