-- ==== Sys2Proof/Laws/BlockCopy.lean ====
section
/-! SUPPORT. What the element moves of COPY do (45_block_copy R155), and what they leave alone. -/

namespace Sys2Proof.Machine

/-- One element move of an order that begins with `i`. -/
theorem moveCells_cons_ok {source target : Int} {i : Nat} {rest : List Nat} {s t : State}
    (h : moveCells source target (i :: rest) s = .ok t) :
    ∃ v u, memRead (source + i) s = .ok v ∧ memWrite (target + i) v s = .ok u ∧
      moveCells source target rest u = .ok t := by
  unfold moveCells at h
  split at h
  · cases h
  · split at h
    · cases h
    · exact ⟨_, _, ‹_›, ‹_›, h⟩

/-- The element moves change the Data Memory and `changed` only. -/
theorem moveCells_frame {source target : Int} {is : List Nat} {s t : State}
    (h : moveCells source target is s = .ok t) :
    t.acc = s.acc ∧ t.pc = s.pc ∧ t.halted = s.halted ∧ t.code = s.code ∧
      t.lastResult = s.lastResult := by
  induction is generalizing s with
  | nil => cases h; exact ⟨rfl, rfl, rfl, rfl, rfl⟩
  | cons i is ih =>
    obtain ⟨v, u, -, hw, hm⟩ := moveCells_cons_ok h
    obtain ⟨-, rfl⟩ := memWrite_ok hw
    simpa using ih hm

/-- The element moves keep the canonical memory. -/
theorem moveCells_mem_wf {source target : Int} {is : List Nat} {s t : State}
    (h : moveCells source target is s = .ok t) (hm : s.mem.wf) : t.mem.wf := by
  induction is generalizing s with
  | nil => cases h; exact hm
  | cons i is ih =>
    obtain ⟨v, u, -, hw, hr⟩ := moveCells_cons_ok h
    obtain ⟨ha, rfl⟩ := memWrite_ok hw
    exact ih hr (write_wf hm (by have := ha.2; have := ha.1; omega) _)

/-- The element moves keep the range of `changed`. -/
theorem moveCells_changed_range {source target : Int} {is : List Nat} {s t : State}
    (h : moveCells source target is s = .ok t)
    (hc : -1 ≤ s.changed ∧ s.changed < Config.dataSize) :
    -1 ≤ t.changed ∧ t.changed < Config.dataSize := by
  induction is generalizing s with
  | nil => cases h; exact hc
  | cons i is ih =>
    obtain ⟨v, u, -, hw, hr⟩ := moveCells_cons_ok h
    obtain ⟨ha, rfl⟩ := memWrite_ok hw
    refine ih hr ⟨?_, ha.2⟩
    have := ha.1; show (-1 : Int) ≤ target + i; omega

/-- In an order in which no cell is read after it was written, every cell gets the old content of its
source cell, and every other cell keeps its own (R155). -/
theorem moveCells_reads {source target : Int} {is : List Nat} (s : State)
    (hin : ∀ i ∈ is, isDataIndex (source + i) ∧ isDataIndex (target + i))
    (hord : is.Pairwise fun (j i : Nat) => j ≠ i ∧ target + (j : Int) ≠ source + (i : Int)) :
    ∃ t, moveCells source target is s = .ok t ∧
      (∀ i ∈ is, memRead (target + i) t = memRead (source + i) s) ∧
      (∀ b, (∀ i ∈ is, b ≠ target + (i : Int)) → memRead b t = memRead b s) ∧
      t.changed = (is.getLast?.map fun (i : Nat) => target + (i : Int)).getD s.changed := by
  induction is generalizing s with
  | nil => exact ⟨s, rfl, by simp, by simp, rfl⟩
  | cons i is ih =>
    obtain ⟨hi, hrest⟩ := List.pairwise_cons.mp hord
    obtain ⟨hsi, hti⟩ := hin i (List.mem_cons_self ..)
    have hv := memRead_of_index (s := s) hsi
    have hw := memWrite_of_index (v := value (s.mem.read (source + i).toNat)) (s := s) hti
    obtain ⟨t, ht, hcopied, hframe, hch⟩ :=
      ih _ (fun k hk => hin k (List.mem_cons_of_mem _ hk)) hrest
    refine ⟨t, ?_, ?_, ?_, ?_⟩
    · rw [moveCells, hv]; dsimp only; rw [hw]; exact ht
    · intro k hk
      rcases List.mem_cons.mp hk with rfl | hk
      · rw [hframe _ fun j hj => by have := (hi j hj).1; omega, memRead_memWrite hw, if_pos rfl, hv]
        simp
      · rw [hcopied k hk, memRead_memWrite hw, if_neg (Ne.symm (hi k hk).2)]
    · intro b hb
      rw [hframe b fun j hj => hb j (List.mem_cons_of_mem _ hj), memRead_memWrite hw,
        if_neg (hb i (List.mem_cons_self ..))]
    · rw [hch]
      cases is with
      | nil => rfl
      | cons k is => simp [List.getLast?_cons]

end Sys2Proof.Machine
end

