-- ==== Sys2Proof/Laws/Decode.lean ====
section
/-! SUPPORT. The fields of a packed word (30_encoding R51) and the rows of the opcode map (R55). -/

namespace Sys2Proof

theorem sext32_eq_toInt (u : BitVec 32) : sext32 u = u.toInt := by
  unfold sext32
  rw [BitVec.toInt_eq_toNat_cond]
  split <;> split <;> omega

theorem opcodeField_pack (op a : Int) : opcodeField (pack op a) = (zext32 op).toNat := by
  unfold opcodeField pack
  congr 1
  exact BitVec.extractLsb'_append_eq_left

theorem argField_pack (op a : Int) : argField (pack op a) = sext32 (zext32 a) := by
  unfold argField pack
  congr 1
  exact BitVec.extractLsb'_append_eq_right

/-- Sign extension undoes the packing of a value that fits 32 bits (R51). -/
theorem sext32_zext32 {a : Int} (h : fits32 a) : sext32 (zext32 a) = a := by
  rw [sext32_eq_toInt]; exact Machine.value_wrap32 h

theorem toNat_zext32 {op : Nat} (h : op < 4294967296) : (zext32 op).toNat = op := by
  simp [zext32]; omega

/-- The row of an instruction's own opcode gives it back. -/
theorem tableInstr_opcode (i : Instr) : tableInstr i.opcode i.arg = some i := by
  cases i <;> rfl

theorem opcode_lt (i : Instr) : i.opcode < 32 := by cases i <;> simp [Instr.opcode]

end Sys2Proof
end

