-- ==== Sys2Proof/Laws/Exec.lean ====
section
/-! SUPPORT. The procedure behind each instruction, and what no procedure can do: the frames shared by all instructions. -/

namespace Sys2Proof.Machine

/-- The procedure an instruction's meaning attempts. -/
def procOf (i : Instr) (s : State) : Except Fault State :=
  match i with
  | .nop => procNop s
  | .lodi a => procLodi a s
  | .lod a => procLod a s
  | .lodn a => procLodn a s
  | .sto a => procSto a s
  | .ston a => procSton a s
  | .jmpi a => procJmpi a s
  | .jump a => procJump a s
  | .jmzi a => procJmzi a s
  | .jmpz a => procJmpz a s
  | .addi a => procAddi a s
  | .add a => procAdd a s
  | .addn a => procAddn a s
  | .subi a => procSubi a s
  | .sub a => procSub a s
  | .subn a => procSubn a s
  | .muli a => procMuli a s
  | .mul a => procMul a s
  | .muln a => procMuln a s
  | .divi a => procDivi a s
  | .div a => procDiv a s
  | .divn a => procDivn a s
  | .andi a => procAndi a s
  | .and a => procAnd a s
  | .not => procNot s
  | .cmpl a => procCmpl a s
  | .cmpz a => procCmpz a s
  | .copy a => procCopy a s
  | .cpyn a => procCpyn a s
  | .halt => procHalt s

/-- Every meaning is an attempt of its procedure. -/
theorem exec_eq_attempt (i : Instr) (s : State) : exec i s = attempt s (procOf i s) := by
  cases i <;> rfl

/-- A procedure that only computes with the accumulator: what it can do to the state. -/
structure AccOnly (s t : State) : Prop where
  pc : t.pc = s.pc + 1
  halted : t.halted = s.halted
  changed : t.changed = s.changed
  code : t.code = s.code
  mem : t.mem = s.mem
  lastResult : t.lastResult = s.lastResult

theorem accOnly_setAcc (s : State) (v : Int) : AccOnly s (s.setAcc v).advance :=
  ⟨rfl, rfl, rfl, rfl, rfl, rfl⟩

theorem delegate_keeps {R : State → State → Prop} (p : Int → State → Except Fault State)
    (hp : ∀ a s t, p a s = .ok t → R s t) {a : Int} {s t : State}
    (h : delegate p a s = .ok t) : R s t := by
  obtain ⟨v, -, h⟩ := delegate_ok h
  exact hp _ _ _ h

theorem lodi_accOnly {a : Int} {s t : State} (h : procLodi a s = .ok t) : AccOnly s t := by
  exact Except.ok.inj h ▸ accOnly_setAcc ..
theorem addi_accOnly {a : Int} {s t : State} (h : procAddi a s = .ok t) : AccOnly s t := by
  exact Except.ok.inj h ▸ accOnly_setAcc ..
theorem subi_accOnly {a : Int} {s t : State} (h : procSubi a s = .ok t) : AccOnly s t := by
  exact Except.ok.inj h ▸ accOnly_setAcc ..
theorem muli_accOnly {a : Int} {s t : State} (h : procMuli a s = .ok t) : AccOnly s t := by
  exact Except.ok.inj h ▸ accOnly_setAcc ..
theorem divi_accOnly {a : Int} {s t : State} (h : procDivi a s = .ok t) : AccOnly s t := by
  unfold procDivi at h
  split at h
  · cases h
  · exact Except.ok.inj h ▸ accOnly_setAcc ..
theorem andi_accOnly {a : Int} {s t : State} (h : procAndi a s = .ok t) : AccOnly s t := by
  exact Except.ok.inj h ▸ accOnly_setAcc ..
theorem not_accOnly {s t : State} (h : procNot s = .ok t) : AccOnly s t := by
  exact Except.ok.inj h ▸ accOnly_setAcc ..
theorem cmpl_accOnly {a : Int} {s t : State} (h : procCmpl a s = .ok t) : AccOnly s t := by
  unfold procCmpl at h
  split at h
  · exact Except.ok.inj h ▸ accOnly_setAcc ..
  · cases h
theorem cmpz_accOnly {a : Int} {s t : State} (h : procCmpz a s = .ok t) : AccOnly s t := by
  unfold procCmpz at h
  split at h
  · exact Except.ok.inj h ▸ accOnly_setAcc ..
  · cases h

theorem lod_accOnly {a : Int} {s t : State} (h : procLod a s = .ok t) : AccOnly s t :=
  delegate_keeps procLodi (fun _ _ _ => lodi_accOnly) h
theorem lodn_accOnly {a : Int} {s t : State} (h : procLodn a s = .ok t) : AccOnly s t :=
  delegate_keeps procLod (fun _ _ _ => lod_accOnly) h
theorem add_accOnly {a : Int} {s t : State} (h : procAdd a s = .ok t) : AccOnly s t :=
  delegate_keeps procAddi (fun _ _ _ => addi_accOnly) h
theorem addn_accOnly {a : Int} {s t : State} (h : procAddn a s = .ok t) : AccOnly s t :=
  delegate_keeps procAdd (fun _ _ _ => add_accOnly) h
theorem sub_accOnly {a : Int} {s t : State} (h : procSub a s = .ok t) : AccOnly s t :=
  delegate_keeps procSubi (fun _ _ _ => subi_accOnly) h
theorem subn_accOnly {a : Int} {s t : State} (h : procSubn a s = .ok t) : AccOnly s t :=
  delegate_keeps procSub (fun _ _ _ => sub_accOnly) h
theorem mul_accOnly {a : Int} {s t : State} (h : procMul a s = .ok t) : AccOnly s t :=
  delegate_keeps procMuli (fun _ _ _ => muli_accOnly) h
theorem muln_accOnly {a : Int} {s t : State} (h : procMuln a s = .ok t) : AccOnly s t :=
  delegate_keeps procMul (fun _ _ _ => mul_accOnly) h
theorem div_accOnly {a : Int} {s t : State} (h : procDiv a s = .ok t) : AccOnly s t :=
  delegate_keeps procDivi (fun _ _ _ => divi_accOnly) h
theorem divn_accOnly {a : Int} {s t : State} (h : procDivn a s = .ok t) : AccOnly s t :=
  delegate_keeps procDiv (fun _ _ _ => div_accOnly) h
theorem and_accOnly {a : Int} {s t : State} (h : procAnd a s = .ok t) : AccOnly s t :=
  delegate_keeps procAndi (fun _ _ _ => andi_accOnly) h

/-- A jump changes `pc` only. -/
structure PcOnly (s t : State) : Prop where
  acc : t.acc = s.acc
  halted : t.halted = s.halted
  changed : t.changed = s.changed
  code : t.code = s.code
  mem : t.mem = s.mem
  lastResult : t.lastResult = s.lastResult

theorem jmpi_pcOnly {a : Int} {s t : State} (h : procJmpi a s = .ok t) : PcOnly s t := by
  cases h; exact ⟨rfl, rfl, rfl, rfl, rfl, rfl⟩
theorem jmzi_pcOnly {a : Int} {s t : State} (h : procJmzi a s = .ok t) : PcOnly s t := by
  cases h; split <;> exact ⟨rfl, rfl, rfl, rfl, rfl, rfl⟩
theorem jump_pcOnly {a : Int} {s t : State} (h : procJump a s = .ok t) : PcOnly s t :=
  delegate_keeps procJmpi (fun _ _ _ => jmpi_pcOnly) h
theorem jmpz_pcOnly {a : Int} {s t : State} (h : procJmpz a s = .ok t) : PcOnly s t :=
  delegate_keeps procJmzi (fun _ _ _ => jmzi_pcOnly) h
theorem nop_pcOnly {s t : State} (h : procNop s = .ok t) : PcOnly s t := by
  cases h; exact ⟨rfl, rfl, rfl, rfl, rfl, rfl⟩

/-- A storing procedure changes the Data Memory, `changed` and `pc` only, and keeps the ranges. -/
structure StoreOnly (s t : State) : Prop where
  acc : t.acc = s.acc
  pc : t.pc = s.pc + 1
  halted : t.halted = s.halted
  code : t.code = s.code
  lastResult : t.lastResult = s.lastResult
  mem_wf : s.mem.wf → t.mem.wf
  changed_range : -1 ≤ s.changed ∧ s.changed < Config.dataSize →
    -1 ≤ t.changed ∧ t.changed < Config.dataSize

theorem sto_storeOnly {a : Int} {s t : State} (h : procSto a s = .ok t) : StoreOnly s t := by
  unfold procSto at h
  split at h
  · rename_i u hu
    obtain ⟨ha, rfl⟩ := memWrite_ok hu
    cases h
    have h0 := ha.1
    have h1 := ha.2
    exact ⟨rfl, rfl, rfl, rfl, rfl, fun hm => write_wf hm (by omega) _,
      fun _ => ⟨by show (-1 : Int) ≤ a; omega, h1⟩⟩
  · cases h

theorem ston_storeOnly {a : Int} {s t : State} (h : procSton a s = .ok t) : StoreOnly s t :=
  delegate_keeps procSto (fun _ _ _ => sto_storeOnly) h

theorem copyBlock_storeOnly {a source target length : Int} {s t : State}
    (h : copyBlock a source target length s = .ok t) : StoreOnly s t := by
  unfold copyBlock at h
  split at h
  · cases h
  · split at h
    · cases h; exact ⟨rfl, rfl, rfl, rfl, rfl, id, id⟩
    · split at h
      · split at h
        · rename_i u hu
          cases h
          obtain ⟨h1, h2, h3, h4, h5⟩ := moveCells_frame hu
          refine ⟨h1, by simp [h2], h3, h4, h5, fun hm => ?_, fun hc => ?_⟩
          · have := moveCells_mem_wf hu hm
            simpa only [advance_mem]
          · have := moveCells_changed_range hu hc
            simpa only [advance_changed]
        · cases h
      · cases h

theorem copy_storeOnly {a : Int} {s t : State} (h : procCopy a s = .ok t) : StoreOnly s t := by
  unfold procCopy at h
  split at h
  · exact copyBlock_storeOnly h
  · cases h

theorem cpyn_storeOnly {a : Int} {s t : State} (h : procCpyn a s = .ok t) : StoreOnly s t :=
  delegate_keeps procCopy (fun _ _ _ => copy_storeOnly) h

/-- HALT sets `halted` and moves `pc` by the open amount. -/
structure HaltOnly (s t : State) : Prop where
  acc : t.acc = s.acc
  pc : t.pc = s.pc + haltPcAdvance
  halted : t.halted = true
  changed : t.changed = s.changed
  code : t.code = s.code
  mem : t.mem = s.mem
  lastResult : t.lastResult = s.lastResult

/-- What a completed procedure can be: one of the four kinds. -/
theorem procOf_cases {i : Instr} {s t : State} (h : procOf i s = .ok t) :
    AccOnly s t ∨ PcOnly s t ∨ StoreOnly s t ∨ (i = .halt ∧ HaltOnly s t) := by
  cases i with
  | nop => exact .inr (.inl (nop_pcOnly h))
  | lodi => exact .inl (lodi_accOnly h)
  | lod => exact .inl (lod_accOnly h)
  | lodn => exact .inl (lodn_accOnly h)
  | sto => exact .inr (.inr (.inl (sto_storeOnly h)))
  | ston => exact .inr (.inr (.inl (ston_storeOnly h)))
  | jmpi => exact .inr (.inl (jmpi_pcOnly h))
  | jump => exact .inr (.inl (jump_pcOnly h))
  | jmzi => exact .inr (.inl (jmzi_pcOnly h))
  | jmpz => exact .inr (.inl (jmpz_pcOnly h))
  | addi => exact .inl (addi_accOnly h)
  | add => exact .inl (add_accOnly h)
  | addn => exact .inl (addn_accOnly h)
  | subi => exact .inl (subi_accOnly h)
  | sub => exact .inl (sub_accOnly h)
  | subn => exact .inl (subn_accOnly h)
  | muli => exact .inl (muli_accOnly h)
  | mul => exact .inl (mul_accOnly h)
  | muln => exact .inl (muln_accOnly h)
  | divi => exact .inl (divi_accOnly h)
  | div => exact .inl (div_accOnly h)
  | divn => exact .inl (divn_accOnly h)
  | andi => exact .inl (andi_accOnly h)
  | and => exact .inl (and_accOnly h)
  | not => exact .inl (not_accOnly h)
  | cmpl => exact .inl (cmpl_accOnly h)
  | cmpz => exact .inl (cmpz_accOnly h)
  | copy => exact .inr (.inr (.inl (copy_storeOnly h)))
  | cpyn => exact .inr (.inr (.inl (cpyn_storeOnly h)))
  | halt => cases h; exact .inr (.inr (.inr ⟨rfl, rfl, rfl, rfl, rfl, rfl, rfl, rfl⟩))

/-- Inversion of `exec`: a completed procedure, or the fault taken. -/
theorem exec_cases {i : Instr} {s t : State} (h : exec i s = .next t) :
    (∃ u, procOf i s = .ok u ∧ t = u.completed) ∨
      (∃ f, procOf i s = .error f ∧ t = s.takeFault f) := by
  rw [exec_eq_attempt] at h
  exact attempt_cases h

/-- Inversion of `step`: it stays halted, faults at fetch or decode, or runs the decoded instruction. -/
theorem step_cases {s t : State} (h : step s = .next t) :
    (s.halted = true ∧ t = s.stayHalted) ∨
    (s.halted = false ∧ ∃ f, fetchInstr s = .error f ∧ t = s.takeFault f) ∨
    (s.halted = false ∧ ∃ i, fetchInstr s = .ok i ∧ exec i s = .next t) := by
  unfold step at h
  split at h
  · cases h; exact .inl ⟨‹_›, rfl⟩
  · rename_i hh
    have hh : s.halted = false := by simpa using hh
    split at h
    · exact .inr (.inr ⟨hh, _, ‹_›, h⟩)
    · cases h; exact .inr (.inl ⟨hh, _, ‹_›, rfl⟩)

end Sys2Proof.Machine
end

