-- ==== Sys2Proof/Laws/PerInstr.lean ====
section
/-! SUPPORT. Statements made per instruction. EncodeFields: the encoded word holds the instruction's opcode in its high half and its argument's 32 bits in its low half (30_encoding R50, R51, R55). -/

/-- The two fields of the encoded word. -/
def Sys2Proof.Laws.EncodeFields.Statement (i : Sys2Proof.Instr) : Prop :=
  Sys2Proof.opcodeField (Sys2Proof.encode i) = i.opcode ∧
    (Sys2Proof.encode i).extractLsb' 0 32 = Sys2Proof.zext32 i.arg

namespace Sys2Proof.Laws

theorem encodeFields_all (i : Instr) : EncodeFields.Statement i := by
  refine ⟨?_, ?_⟩
  · rw [encode, opcodeField_pack, toNat_zext32 (by have := opcode_lt i; omega)]
  · unfold encode pack; exact BitVec.extractLsb'_append_eq_right

end Sys2Proof.Laws

theorem Sys2Proof.Laws.EncodeFields.nop : Sys2Proof.Laws.EncodeFields.Statement .nop := Sys2Proof.Laws.encodeFields_all _
theorem Sys2Proof.Laws.EncodeFields.lodi (arg : Int) : Sys2Proof.Laws.EncodeFields.Statement (.lodi arg) := Sys2Proof.Laws.encodeFields_all _
theorem Sys2Proof.Laws.EncodeFields.lod (arg : Int) : Sys2Proof.Laws.EncodeFields.Statement (.lod arg) := Sys2Proof.Laws.encodeFields_all _
theorem Sys2Proof.Laws.EncodeFields.lodn (arg : Int) : Sys2Proof.Laws.EncodeFields.Statement (.lodn arg) := Sys2Proof.Laws.encodeFields_all _
theorem Sys2Proof.Laws.EncodeFields.sto (arg : Int) : Sys2Proof.Laws.EncodeFields.Statement (.sto arg) := Sys2Proof.Laws.encodeFields_all _
theorem Sys2Proof.Laws.EncodeFields.ston (arg : Int) : Sys2Proof.Laws.EncodeFields.Statement (.ston arg) := Sys2Proof.Laws.encodeFields_all _
theorem Sys2Proof.Laws.EncodeFields.jmpi (arg : Int) : Sys2Proof.Laws.EncodeFields.Statement (.jmpi arg) := Sys2Proof.Laws.encodeFields_all _
theorem Sys2Proof.Laws.EncodeFields.jump (arg : Int) : Sys2Proof.Laws.EncodeFields.Statement (.jump arg) := Sys2Proof.Laws.encodeFields_all _
theorem Sys2Proof.Laws.EncodeFields.jmzi (arg : Int) : Sys2Proof.Laws.EncodeFields.Statement (.jmzi arg) := Sys2Proof.Laws.encodeFields_all _
theorem Sys2Proof.Laws.EncodeFields.jmpz (arg : Int) : Sys2Proof.Laws.EncodeFields.Statement (.jmpz arg) := Sys2Proof.Laws.encodeFields_all _
theorem Sys2Proof.Laws.EncodeFields.addi (arg : Int) : Sys2Proof.Laws.EncodeFields.Statement (.addi arg) := Sys2Proof.Laws.encodeFields_all _
theorem Sys2Proof.Laws.EncodeFields.add (arg : Int) : Sys2Proof.Laws.EncodeFields.Statement (.add arg) := Sys2Proof.Laws.encodeFields_all _
theorem Sys2Proof.Laws.EncodeFields.addn (arg : Int) : Sys2Proof.Laws.EncodeFields.Statement (.addn arg) := Sys2Proof.Laws.encodeFields_all _
theorem Sys2Proof.Laws.EncodeFields.subi (arg : Int) : Sys2Proof.Laws.EncodeFields.Statement (.subi arg) := Sys2Proof.Laws.encodeFields_all _
theorem Sys2Proof.Laws.EncodeFields.sub (arg : Int) : Sys2Proof.Laws.EncodeFields.Statement (.sub arg) := Sys2Proof.Laws.encodeFields_all _
theorem Sys2Proof.Laws.EncodeFields.subn (arg : Int) : Sys2Proof.Laws.EncodeFields.Statement (.subn arg) := Sys2Proof.Laws.encodeFields_all _
theorem Sys2Proof.Laws.EncodeFields.muli (arg : Int) : Sys2Proof.Laws.EncodeFields.Statement (.muli arg) := Sys2Proof.Laws.encodeFields_all _
theorem Sys2Proof.Laws.EncodeFields.mul (arg : Int) : Sys2Proof.Laws.EncodeFields.Statement (.mul arg) := Sys2Proof.Laws.encodeFields_all _
theorem Sys2Proof.Laws.EncodeFields.muln (arg : Int) : Sys2Proof.Laws.EncodeFields.Statement (.muln arg) := Sys2Proof.Laws.encodeFields_all _
theorem Sys2Proof.Laws.EncodeFields.divi (arg : Int) : Sys2Proof.Laws.EncodeFields.Statement (.divi arg) := Sys2Proof.Laws.encodeFields_all _
theorem Sys2Proof.Laws.EncodeFields.div (arg : Int) : Sys2Proof.Laws.EncodeFields.Statement (.div arg) := Sys2Proof.Laws.encodeFields_all _
theorem Sys2Proof.Laws.EncodeFields.divn (arg : Int) : Sys2Proof.Laws.EncodeFields.Statement (.divn arg) := Sys2Proof.Laws.encodeFields_all _
theorem Sys2Proof.Laws.EncodeFields.andi (arg : Int) : Sys2Proof.Laws.EncodeFields.Statement (.andi arg) := Sys2Proof.Laws.encodeFields_all _
theorem Sys2Proof.Laws.EncodeFields.and (arg : Int) : Sys2Proof.Laws.EncodeFields.Statement (.and arg) := Sys2Proof.Laws.encodeFields_all _
theorem Sys2Proof.Laws.EncodeFields.not : Sys2Proof.Laws.EncodeFields.Statement .not := Sys2Proof.Laws.encodeFields_all _
theorem Sys2Proof.Laws.EncodeFields.cmpl (arg : Int) : Sys2Proof.Laws.EncodeFields.Statement (.cmpl arg) := Sys2Proof.Laws.encodeFields_all _
theorem Sys2Proof.Laws.EncodeFields.cmpz (arg : Int) : Sys2Proof.Laws.EncodeFields.Statement (.cmpz arg) := Sys2Proof.Laws.encodeFields_all _
theorem Sys2Proof.Laws.EncodeFields.copy (arg : Int) : Sys2Proof.Laws.EncodeFields.Statement (.copy arg) := Sys2Proof.Laws.encodeFields_all _
theorem Sys2Proof.Laws.EncodeFields.cpyn (arg : Int) : Sys2Proof.Laws.EncodeFields.Statement (.cpyn arg) := Sys2Proof.Laws.encodeFields_all _
theorem Sys2Proof.Laws.EncodeFields.halt : Sys2Proof.Laws.EncodeFields.Statement .halt := Sys2Proof.Laws.encodeFields_all _
end

