-- ==== Sys2Proof/Tests/Slice0.lean ====
section
/-! SUPPORT. Tests: the decoder on words written out from 30_encoding R55 and 95_test_vectors section 2.1, single steps from 95_test_vectors sections 2.2 to 2.8, and a witness for the hypotheses of each statement that has some. Every expected value is the spec's. -/

namespace Sys2Proof.Machine

/-- A running engine at `pc = 0` with an accumulator and some Data Memory cells (indexes rising, no 0). -/
def testState (acc : Int) (cells : List (Nat × Int)) : State :=
  { State.reset with acc := wrap32 acc, mem := cells.map fun c => (c.1, wrap32 c.2) }

/-- The next state of an answer. -/
def nextOf : Answer → Option State
  | .next t => some t
  | .fault _ => none
  | .refused _ => none

/-- The state after one step that fetches the word. -/
def stepWord (s : State) (w : Nat) : Option State := nextOf (step (s.withFetchWord 64 w))

/-- `acc`, `pc`, `changed` and the result of a step. -/
def seen (s : Option State) : Option (Int × Int × Int × Option StepResult) :=
  s.map fun t => (value t.acc, value t.pc, t.changed, t.lastResult)

/-- Some Data Memory cells. -/
def cellsOf (s : Option State) (is : List Nat) : Option (List Int) :=
  s.map fun t => is.map fun a => value (t.mem.read a)

/-! ### Well-formedness and decoding -/

theorem test_wellFormed_bounds : (Instr.lodi 2147483647).wellFormed ∧ (Instr.sto (-2147483648)).wellFormed := by
  decide
theorem test_illFormed_too_large : ¬ (Instr.lodi 2147483648).wellFormed := by decide
theorem test_illFormed_too_small : ¬ (Instr.copy (-2147483649)).wellFormed := by decide

theorem test_decode_load_store :
    decodeTableWord 64 0x0000000100000005 = some (.lodi 5) ∧
    decodeTableWord 64 0x0000000200000010 = some (.lod 16) ∧
    decodeTableWord 64 0x0000000300000020 = some (.lodn 32) ∧
    decodeTableWord 64 0x0000000400000000 = some (.sto 0) ∧
    decodeTableWord 64 0x0000000500000034 = some (.ston 52) := by decide

theorem test_decode_jump :
    decodeTableWord 64 0x0000000600000008 = some (.jmpi 8) ∧
    decodeTableWord 64 0x0000000700000005 = some (.jump 5) ∧
    decodeTableWord 64 0x0000000800000008 = some (.jmzi 8) ∧
    decodeTableWord 64 0x0000000900000021 = some (.jmpz 33) := by decide

theorem test_decode_add_sub :
    decodeTableWord 64 0x0000000A00000001 = some (.addi 1) ∧
    decodeTableWord 64 0x0000000B00000001 = some (.add 1) ∧
    decodeTableWord 64 0x0000000C00000002 = some (.addn 2) ∧
    decodeTableWord 64 0x0000000D00000001 = some (.subi 1) ∧
    decodeTableWord 64 0x0000000E00000000 = some (.sub 0) ∧
    decodeTableWord 64 0x0000000F00000002 = some (.subn 2) := by decide

theorem test_decode_mul_div :
    decodeTableWord 64 0x00000010FFFFFFFD = some (.muli (-3)) ∧
    decodeTableWord 64 0x0000001100000003 = some (.mul 3) ∧
    decodeTableWord 64 0x0000001200000002 = some (.muln 2) ∧
    decodeTableWord 64 0x0000001300000005 = some (.divi 5) ∧
    decodeTableWord 64 0x0000001400000004 = some (.div 4) ∧
    decodeTableWord 64 0x0000001500000002 = some (.divn 2) := by decide

theorem test_decode_logic :
    decodeTableWord 64 0x0000001600000009 = some (.andi 9) ∧
    decodeTableWord 64 0x0000001700000007 = some (.and 7) ∧
    decodeTableWord 64 0x0000001800000000 = some .not ∧
    decodeTableWord 64 0x0000001900000010 = some (.cmpl 16) ∧
    decodeTableWord 64 0x0000001A00000003 = some (.cmpz 3) := by decide

theorem test_decode_copy_system :
    decodeTableWord 64 0x0000001D00000064 = some (.copy 100) ∧
    decodeTableWord 64 0x0000001E00000032 = some (.cpyn 50) ∧
    decodeTableWord 64 0x0000000000000000 = some .nop ∧
    decodeTableWord 64 0x0000001F00000000 = some .halt := by decide

theorem test_decode_sign_extends : decodeTableWord 64 0x00000001FFFFFFFF = some (.lodi (-1)) ∧
    decodeTableWord 64 0x0000000180000000 = some (.lodi (-2147483648)) := by decide
theorem test_decode_ignored_argument : decodeTableWord 64 0x0000000012345678 = some .nop ∧
    decodeTableWord 64 0x000000180000002A = some .not ∧
    decodeTableWord 64 0x0000001FFFFFFFFF = some .halt := by decide
theorem test_decode_rejects_by_name : (decode 0x0000001B00000000#64 matches .error .reservedOpcode) ∧
    (decode 0x0000001C00000007#64 matches .error .reservedOpcode) ∧
    (decode 0x0000002000000000#64 matches .error .undefinedOpcode) ∧
    (decode 0x0000010100000005#64 matches .error .undefinedOpcode) ∧
    (decode 0xFFFFFFFE00000000#64 matches .error .undefinedOpcode) ∧
    (decode 0x8000000100000005#64 matches .error .undefinedOpcode) := by decide
theorem test_encode : encode (.muli (-3)) = 0x00000010FFFFFFFD#64 ∧ encode .halt = 0x0000001F00000000#64 := by
  decide
theorem test_argument_classes : (Instr.jmpz 0).argClass = .directTarget ∧ (Instr.ston 0).argClass = .indirectStore ∧
    (Instr.cmpl 0).argClass = .directData ∧ (Instr.cpyn 0).argClass = .descriptorPointer ∧
    Instr.not.argClass = .none ∧ (Instr.muln 0).argClass = .indirectData := by decide

/-! ### One step each (95_test_vectors sections 2.2 to 2.8) -/

theorem test_nop : seen (stepWord (testState 9 []) 0x0000000000000000) = some (9, 1, -1, some .running) := by decide
theorem test_lodi : seen (stepWord (testState 9 []) 0x0000000100000005) = some (5, 1, -1, some .running) := by decide
theorem test_lodi_min : seen (stepWord (testState 0 []) 0x0000000180000000) = some (-2147483648, 1, -1, some .running) := by decide
theorem test_lod : seen (stepWord (testState 0 [(16, -7)]) 0x0000000200000010) = some (-7, 1, -1, some .running) := by decide
theorem test_lod_faults : seen (stepWord (testState 9 []) 0x0000000200000200) = some (9, 0, -1, some (.fault .memoryIndex)) := by decide
theorem test_lodn : seen (stepWord (testState 0 [(7, 99), (32, 7)]) 0x0000000300000020) = some (99, 1, -1, some .running) := by decide
theorem test_lodn_pointer_faults : seen (stepWord (testState 3 [(32, -1)]) 0x0000000300000020) = some (3, 0, -1, some (.fault .memoryIndex)) := by decide
theorem test_sto : seen (stepWord (testState 5 []) 0x00000004000001FF) = some (5, 1, 511, some .running) ∧
    cellsOf (stepWord (testState 5 []) 0x00000004000001FF) [511] = some [5] := by decide
theorem test_sto_faults : seen (stepWord (testState 5 []) 0x0000000400000200) = some (5, 0, -1, some (.fault .memoryIndex)) := by decide
theorem test_ston : seen (stepWord (testState (-2) [(52, 16)]) 0x0000000500000034) = some (-2, 1, 16, some .running) ∧
    cellsOf (stepWord (testState (-2) [(52, 16)]) 0x0000000500000034) [16, 52] = some [-2, 16] := by decide
theorem test_ston_own_pointer : seen (stepWord (testState 8 [(52, 52)]) 0x0000000500000034) = some (8, 1, 52, some .running) ∧
    cellsOf (stepWord (testState 8 [(52, 52)]) 0x0000000500000034) [52] = some [8] := by decide
theorem test_jmpi_negative : seen (stepWord (testState 3 []) 0x00000006FFFFFFFF) = some (3, -1, -1, some .running) := by decide
theorem test_jump : seen (stepWord (testState 0 [(5, 2)]) 0x0000000700000005) = some (0, 2, -1, some .running) := by decide
theorem test_jmzi_taken : seen (stepWord (testState 0 []) 0x0000000800000002) = some (0, 2, -1, some .running) := by decide
theorem test_jmzi_not_taken : seen (stepWord (testState (-2147483648) []) 0x0000000800000002) = some (-2147483648, 1, -1, some .running) := by decide
theorem test_jmpz_not_taken : seen (stepWord (testState (-1) [(5, 2)]) 0x0000000900000005) = some (-1, 1, -1, some .running) := by decide
theorem test_jmpz_reads_first : seen (stepWord (testState 7 []) 0x0000000900000200) = some (7, 0, -1, some (.fault .memoryIndex)) := by decide
theorem test_addi_wraps : seen (stepWord (testState 2147483647 []) 0x0000000A00000001) = some (-2147483648, 1, -1, some .running) := by decide
theorem test_add : seen (stepWord (testState 3 [(1, 3)]) 0x0000000B00000001) = some (6, 1, -1, some .running) := by decide
theorem test_addn : seen (stepWord (testState 2 [(2, 9), (9, 40)]) 0x0000000C00000002) = some (42, 1, -1, some .running) := by decide
theorem test_subi_wraps : seen (stepWord (testState 0 []) 0x0000000D80000000) = some (-2147483648, 1, -1, some .running) := by decide
theorem test_sub : seen (stepWord (testState 4 [(1, 10)]) 0x0000000E00000001) = some (-6, 1, -1, some .running) := by decide
theorem test_subn : seen (stepWord (testState 2 [(2, 9), (9, 40)]) 0x0000000F00000002) = some (-38, 1, -1, some .running) := by decide
theorem test_muli : seen (stepWord (testState 4 []) 0x00000010FFFFFFFD) = some (-12, 1, -1, some .running) := by decide
theorem test_mul_wraps : seen (stepWord (testState 46341 [(3, 46341)]) 0x0000001100000003) = some (-2147479015, 1, -1, some .running) := by decide
theorem test_muln : seen (stepWord (testState 6 [(2, 9), (9, -5)]) 0x0000001200000002) = some (-30, 1, -1, some .running) := by decide
theorem test_divi_toward_zero : seen (stepWord (testState (-12) []) 0x0000001300000005) = some (-2, 1, -1, some .running) := by decide
theorem test_divi_min_by_minus_one : seen (stepWord (testState (-2147483648) []) 0x00000013FFFFFFFF) = some (-2147483648, 1, -1, some .running) := by decide
theorem test_div : seen (stepWord (testState 7 [(4, -2)]) 0x0000001400000004) = some (-3, 1, -1, some .running) := by decide
theorem test_div_by_zero : seen (stepWord (testState 7 []) 0x0000001400000004) = some (7, 0, -1, some (.fault .arithmetic)) := by decide
theorem test_divn : seen (stepWord (testState 17 [(2, 9), (9, 4)]) 0x0000001500000002) = some (4, 1, -1, some .running) := by decide
theorem test_divn_pointer_first : seen (stepWord (testState 17 [(2, 600)]) 0x0000001500000002) = some (17, 0, -1, some (.fault .memoryIndex)) := by decide
theorem test_andi_logical : seen (stepWord (testState 6 []) 0x0000001600000009) = some (1, 1, -1, some .running) := by decide
theorem test_and : seen (stepWord (testState (-4) [(7, 2)]) 0x0000001700000007) = some (1, 1, -1, some .running) := by decide
theorem test_not_false : seen (stepWord (testState 0 []) 0x0000001800000000) = some (1, 1, -1, some .running) := by decide
theorem test_not_true : seen (stepWord (testState 5 []) 0x0000001800000000) = some (0, 1, -1, some .running) := by decide
theorem test_cmpl_negative : seen (stepWord (testState 77 [(16, -2147483648)]) 0x0000001900000010) = some (1, 1, -1, some .running) := by decide
theorem test_cmpl_zero : seen (stepWord (testState 77 []) 0x0000001900000010) = some (0, 1, -1, some .running) := by decide
theorem test_cmpz_zero : seen (stepWord (testState 77 []) 0x0000001A00000003) = some (1, 1, -1, some .running) := by decide
theorem test_cmpz_nonzero : seen (stepWord (testState 77 [(3, -1)]) 0x0000001A00000003) = some (0, 1, -1, some .running) := by decide
theorem test_copy_overlap_down : seen (stepWord (testState 0 [(10, 1), (11, 2), (12, 3), (13, 4), (100, 10), (101, 12), (102, 4)]) 0x0000001D00000064) = some (0, 1, 12, some .running) ∧
    cellsOf (stepWord (testState 0 [(10, 1), (11, 2), (12, 3), (13, 4), (100, 10), (101, 12), (102, 4)]) 0x0000001D00000064) [10, 11, 12, 13, 14, 15] = some [1, 2, 1, 2, 3, 4] := by decide
theorem test_copy_overlap_up : seen (stepWord (testState 0 [(12, 5), (13, 6), (14, 7), (15, 8), (100, 12), (101, 10), (102, 4)]) 0x0000001D00000064) = some (0, 1, 13, some .running) ∧
    cellsOf (stepWord (testState 0 [(12, 5), (13, 6), (14, 7), (15, 8), (100, 12), (101, 10), (102, 4)]) 0x0000001D00000064) [10, 11, 12, 13, 14, 15] = some [5, 6, 7, 8, 7, 8] := by decide
theorem test_cpyn : seen (stepWord (testState 0 [(10, 1), (11, 2), (12, 3), (13, 4), (50, 100), (100, 10), (101, 12), (102, 4)]) 0x0000001E00000032) = some (0, 1, 12, some .running) ∧
    cellsOf (stepWord (testState 0 [(10, 1), (11, 2), (12, 3), (13, 4), (50, 100), (100, 10), (101, 12), (102, 4)]) 0x0000001E00000032) [12, 13, 14, 15] = some [1, 2, 3, 4] := by decide
theorem test_cpyn_pointer_faults : seen (stepWord (testState 0 [(50, 510)]) 0x0000001E00000032) = some (0, 0, -1, some (.fault .memoryIndex)) := by decide
theorem test_halt : (stepWord (testState 5 []) 0x0000001F00000000).map (fun t => (t.halted, t.lastResult)) =
    some (true, some .halted) := by rfl
theorem test_reset_steps_to_access_fault : seen (nextOf (step State.reset)) = some (0, 0, -1, some (.fault .access)) := by
  decide
theorem test_reserved_opcode_faults : seen (stepWord (testState 9 []) 0x0000001B00000000) =
    some (9, 0, -1, some (.fault .illegalOpcode)) := by decide
theorem test_already_halted : nextOf (step { testState 9 [] with halted := true }) =
    some { testState 9 [] with halted := true, lastResult := some .alreadyHalted } := by decide

/-- The result of `COPY 64` (descriptor at 100) with a source, a target and a length. -/
def copyResult (source target length : Int) : Option StepResult :=
  (nextOf (exec (.copy 100) { testState 0 [] with
    mem := (((Memory.write [] 100 (wrap32 source)).write 101 (wrap32 target)).write 102
      (wrap32 length)) })).bind (·.lastResult)

theorem test_copy_edges_legal : copyResult 10 10 5 = some .running ∧ copyResult 90 200 10 = some .running ∧
    copyResult 103 200 5 = some .running ∧ copyResult 200 98 2 = some .running ∧
    copyResult 507 0 5 = some .running ∧ copyResult 0 507 5 = some .running ∧
    copyResult 5 5 0 = some .running ∧ copyResult 600 (-7) 0 = some .running := by decide
theorem test_copy_edges_refused : copyResult 90 200 11 = some (.fault .range) ∧
    copyResult 102 200 1 = some (.fault .range) ∧ copyResult 200 98 3 = some (.fault .range) ∧
    copyResult 200 101 1 = some (.fault .range) ∧ copyResult 507 0 6 = some (.fault .range) ∧
    copyResult 0 508 5 = some (.fault .range) ∧ copyResult (-1) 0 1 = some (.fault .range) ∧
    copyResult 0 (-1) 1 = some (.fault .range) ∧ copyResult 0 200 512 = some (.fault .range) ∧
    copyResult 2147483647 0 2 = some (.fault .range) ∧ copyResult 5 6 (-1) = some (.fault .range) := by
  decide

/-! ### Text formats (30_encoding R62 to R69; 95_test_vectors S1 and S6) -/

/-- The source of S1: `LODI 5`, `STO 0`, `HALT`, `ENDCODE`. -/
def sourceS1 : List Line :=
  [['L','O','D','I',' ','5'], ['S','T','O',' ','0'], ['H','A','L','T'], endcode]

/-- The image of S1: `1 5`, `4 0`, `1f 0`, `-1`. -/
def imageS1 : List Line := [['1',' ','5'], ['4',' ','0'], ['1','f',' ','0'], ['-','1']]

theorem test_assemble_S1 : (match assemble sourceS1 with | .ok img => img.text | .error _ => []) = imageS1 := by
  decide
theorem test_load_S1 : (match load imageS1 State.reset with | .next (t, r) => (t.code, r) | _ => ([], .loadFault 0)) =
    ([0x0000000100000005#64, 0x0000000400000000#64, 0x0000001F00000000#64], .loaded) := by decide
theorem test_second_blank_line : (match assemble [['N','O','P'], [], ['N','O','P'], [' '], endcode] with
    | .ok _ => none | .error e => some e) = some ⟨4, .secondBlankLine⟩ := by decide
theorem test_argument_count : (match assemble [['L','O','D','I'], endcode] with
    | .ok _ => none | .error e => some e) = some ⟨1, .missingArgument⟩ ∧
    (match assemble [['N','O','P'], ['L','O','D',' ','1',' ','2'], endcode] with
    | .ok _ => none | .error e => some e) = some ⟨2, .extraToken⟩ := by decide
theorem test_hex_tokens : hexToken ['-','8','0','0','0','0','0','0','0'] = some (-2147483648) ∧
    hexToken ['f','f','f','f','f','f','f','f'] = none ∧ hexToken ['C','8'] = some 200 ∧
    hexToken ['-'] = none ∧ hexToken ['0','x','1'] = none := by decide

/-! ### The host interface (95_test_vectors section 2.8) -/

theorem test_setData : (setData 7 3 State.reset).1.changed = 7 ∧ (setData 7 3 State.reset).2 = .done ∧
    setData 512 3 State.reset = (State.reset, .memoryIndexError) := by decide
theorem test_append_after_step_refused : (match hostCall (.appendCode 0) { State.reset with lastResult := some .running } with
    | .refused .appendAfterStep => true | _ => false) = true := by decide
/-- A full Code Store. -/
def fullStore : State := { State.reset with code := List.replicate 256 0 }
theorem fullStore_codeSize : fullStore.codeSize = 256 := List.length_replicate

theorem test_append_to_full_store : hostCall (.appendCode 1) fullStore = .next (fullStore, .loadError) := by
  have h : ¬ fullStore.codeSize < Config.codeCapacity := by rw [fullStore_codeSize]; decide
  have hl : fullStore.isLoading = true := rfl
  simp only [hostCall, appendCode, hl, if_true, if_neg h]
theorem test_run_S1 : (run 5 { State.reset with code :=
    [0x0000000100000005#64, 0x0000000400000000#64, 0x0000001F00000000#64] }).map
      (fun t => (value t.acc, value (t.mem.read 0), t.halted, t.lastResult)) =
    some (5, 5, true, some .halted) := by rfl

/-! ### Witnesses: states and operands that meet the hypotheses of each statement -/

/-- Pointers, data and descriptors for the witnesses: `mem[32] = 7`, `mem[7] = 99`, `mem[33] = 600`,
`mem[0] = 511`, `mem[50] = 100` and the COPY descriptor (10, 12, 4) at 100. -/
def witnessState : State := { testState (-12) [(0, 511), (7, 99), (32, 7), (33, 600), (50, 100), (100, 10),
  (101, 12), (102, 4)] with code := [0x0000000200000007#64, 0x0000001B00000000#64] }

theorem witness_PackThenUnpack : (0x1F : Nat) < 4294967296 ∧ fits32 (-2147483648) ∧ fits32 2147483647 := by decide
theorem witness_DecodeOfEncode : (Instr.lodi (-2147483648)).wellFormed ∧ Instr.halt.wellFormed := by decide
theorem witness_EncodeOfDecode : decode 0x00000001FFFFFFFF#64 = .ok (.lodi (-1)) ∧
    decode 0x0000001FFFFFFFFF#64 = .ok .halt ∧ Instr.halt.argClass = .none ∧
    (Instr.lodi (-1)).argClass ≠ .none := by decide
theorem witness_OpcodeMap : fits32 (-2147483648) ∧ fits32 2147483647 ∧
    decode 0x0000001A00000000#64 = .ok (.cmpz 0) := by decide
theorem witness_DecoderIsTotal : inOpcodeSet (opcodeField 0x0000001A00000000#64) ∧
    inOpcodeSet (opcodeField 0x0000001D00000000#64) ∧ opcodeField 0x0000001B00000000#64 = 0x1B ∧
    opcodeField 0x0000001C00000000#64 = 0x1C ∧ 0x20 ≤ opcodeField 0x0000002000000000#64 :=
  ⟨.inl (by decide), .inr (.inl (by decide)), by decide, by decide, by decide⟩
theorem witness_StepRunsTheFetchedInstruction : witnessState.halted = false ∧ value witnessState.pc = (0 : Nat) ∧
    witnessState.code[0]? = some 0x0000000200000007#64 ∧ decode 0x0000000200000007#64 = .ok (.lod 7) ∧
    value (wrap32 (-1)) < 0 ∧ (witnessState.codeSize : Int) ≤ value (wrap32 2) := by decide
theorem witness_UndefinedOpcodeFaults : ({ witnessState with pc := 1 } : State).halted = false ∧
    value ({ witnessState with pc := 1 } : State).pc = (1 : Nat) ∧
    witnessState.code[1]? = some 0x0000001B00000000#64 ∧ ¬ inOpcodeSet (opcodeField 0x0000001B00000000#64) :=
  ⟨rfl, by decide, by decide, by unfold inOpcodeSet; decide⟩
theorem witness_HaltedEngineStaysAsItIs : ({ witnessState with halted := true } : State).halted = true := rfl
theorem witness_FaultEntry : step State.reset = .next (afterFault State.reset .access) ∧
    (afterFault State.reset .access).lastResult = some (.fault .access) := ⟨rfl, rfl⟩
theorem witness_PcRule_completes : witnessState.halted = false ∧ witnessState.codeSize ≤ Config.codeCapacity ∧
    fetchInstr witnessState = .ok (.lod 7) ∧ step witnessState = .next (accWritten witnessState 99) ∧
    ¬ ∃ f, (accWritten witnessState 99).lastResult = some (.fault f) :=
  ⟨rfl, by decide, by decide, rfl, by intro ⟨f, h⟩; cases h⟩
theorem witness_PcRule_faults : fetchInstr { witnessState with code := [0x0000000200000200#64] } = .ok (.lod 512) ∧
    step { witnessState with code := [0x0000000200000200#64] } =
      .next (afterFault { witnessState with code := [0x0000000200000200#64] } .memoryIndex) :=
  ⟨by decide, rfl⟩
theorem witness_StoresNeverAffectFetch : exec (.sto 5) State.reset =
    .next { State.reset with changed := 5, pc := 1, lastResult := some .running } ∧
    step witnessState = .next (accWritten witnessState 99) := ⟨rfl, rfl⟩
theorem witness_StepKeepsInvariant : State.Inv witnessState ∧ step witnessState = .next (accWritten witnessState 99) :=
  ⟨⟨by decide, by decide, by decide, rfl⟩, rfl⟩
theorem witness_HostCallsKeepInvariant : State.Inv State.reset ∧
    hostCall (.appendCode 5) State.reset = .next ({ State.reset with code := [5] }, .done) :=
  ⟨⟨by decide, by decide, by decide, rfl⟩, rfl⟩
theorem witness_HaltedLeftOnlyByClear : ({ witnessState with halted := true } : State).halted = true ∧
    hostCall .clear { witnessState with halted := true } = .next (State.reset, .done) ∧
    hostCall .isHalted { witnessState with halted := true } =
      .next ({ witnessState with halted := true }, .flag true) := ⟨rfl, rfl, rfl⟩
theorem witness_AccChangedOnlyByItsWriters : ¬ writesAcc (.jmpi 3) ∧
    exec (.jmpi 3) witnessState = .next (pcWritten witnessState 3) := ⟨id, rfl⟩
theorem witness_SixInstructionsIgnoreAcc : ignoresAcc (.jump 32) ∧
    exec (.jump 32) witnessState = .next (pcWritten witnessState 7) := ⟨trivial, rfl⟩
theorem witness_DataChangedOnlyByStores : ¬ storesData (.lod 7) ∧
    exec (.lod 7) witnessState = .next (accWritten witnessState 99) := ⟨id, rfl⟩
theorem witness_ChangedIndexIsNeverRead : agreeButChanged witnessState { witnessState with changed := 7 } ∧
    step witnessState = .next (accWritten witnessState 99) ∧
    step { witnessState with changed := 7 } = .next (accWritten { witnessState with changed := 7 } 99) :=
  ⟨⟨rfl, rfl, rfl, rfl, rfl⟩, rfl, rfl⟩
theorem witness_CodeReadRule : 1 < witnessState.codeSize ∧ ((1 : Nat) : Int) = 1 ∧ (-1 : Int) < 0 ∧
    (witnessState.codeSize : Int) ≤ 2 := by decide
theorem witness_MemReadRule : memRead 0 witnessState = .ok 511 ∧ memRead 511 witnessState = .ok 0 ∧
    memRead (-1) witnessState = .error .memoryIndex ∧ memRead 512 witnessState = .error .memoryIndex := by decide
theorem witness_MemWriteRule : fits32 (-2147483648) ∧ fits32 2147483647 ∧ (0 ≤ (511 : Int) ∧ (511 : Int) ≤ 511) ∧
    ¬ (0 ≤ (512 : Int) ∧ (512 : Int) ≤ 511) ∧ ¬ (0 ≤ (-1 : Int) ∧ (-1 : Int) ≤ 511) := by decide
theorem witness_OperandOfEachMode : operand .direct 0 witnessState = .ok 511 ∧
    operand .indirect 0 witnessState = .ok 0 ∧ operand .indirect 32 witnessState = .ok 99 ∧
    operand .indirect 33 witnessState = .error .memoryIndex ∧
    operand .indirect 512 witnessState = .error .memoryIndex := by decide
theorem witness_DelegationChains : memRead 32 witnessState = .ok 7 ∧
    memRead (-1) witnessState = .error .memoryIndex := by decide
theorem witness_CanonicalMemoriesAreDetermined : Memory.wf witnessState.mem ∧ Memory.wf [] := by decide
theorem witness_LoadsComplete : witnessState.halted = false ∧ fits32 32 ∧ operand .immediate 32 witnessState = .ok 32 ∧
    operand .direct 32 witnessState = .ok 7 ∧ operand .indirect 32 witnessState = .ok 99 ∧
    operand .direct 512 witnessState = .error .memoryIndex := by decide
theorem witness_StoresComplete : witnessState.halted = false ∧ memRead 0 witnessState = .ok 511 ∧
    (0 ≤ (511 : Int) ∧ (511 : Int) ≤ 511) ∧ memRead 33 witnessState = .ok 600 ∧
    ¬ (0 ≤ (600 : Int) ∧ (600 : Int) ≤ 511) ∧ ¬ (0 ≤ (-1 : Int) ∧ (-1 : Int) ≤ 511) := by decide
theorem witness_JumpsComplete : witnessState.halted = false ∧ memRead 33 witnessState = .ok 600 ∧
    ¬ (0 ≤ (512 : Int) ∧ (512 : Int) ≤ 511) ∧ fits32 (-1) ∧ fits32 2 ∧ (witnessState.codeSize : Int) ≤ 2 := by decide
theorem witness_JmpzCompletes : witnessState.halted = false ∧ memRead 33 witnessState = .ok 600 ∧
    ¬ (0 ≤ (-1 : Int) ∧ (-1 : Int) ≤ 511) := by decide
theorem witness_WrapIsReductionModulo : fits32 (-2147483648) ∧ fits32 2147483647 := by decide
theorem witness_AddSubMulComplete : witnessState.halted = false ∧ operand .indirect 32 witnessState = .ok 99 ∧
    operand .indirect 33 witnessState = .error .memoryIndex := by decide
theorem witness_DivisionCompletes : witnessState.halted = false ∧ operand .direct 32 witnessState = .ok 7 ∧
    (7 : Int) ≠ 0 := by decide
theorem witness_ZeroDivisorFaults : operand .direct 1 witnessState = .ok 0 ∧
    exec (.div 1) witnessState = .next (afterFault witnessState .arithmetic) ∧
    (afterFault witnessState .arithmetic).lastResult = some (.fault .arithmetic) := ⟨by decide, rfl, rfl⟩
theorem witness_DataAddressFaults : ¬ (0 ≤ (512 : Int) ∧ (512 : Int) ≤ 511) ∧ ¬ (0 ≤ (-1 : Int) ∧ (-1 : Int) ≤ 511) ∧
    memRead 33 witnessState = .ok 600 ∧ ¬ (0 ≤ (600 : Int) ∧ (600 : Int) ≤ 511) := by decide
theorem witness_LogicCompletes : witnessState.halted = false ∧ memRead 511 witnessState = .ok 0 ∧
    ¬ (0 ≤ (512 : Int) ∧ (512 : Int) ≤ 511) := by decide
theorem witness_ComparesComplete : witnessState.halted = false ∧ memRead 0 witnessState = .ok 511 ∧
    ¬ (0 ≤ (-1 : Int) ∧ (-1 : Int) ≤ 511) := by decide
theorem witness_NopCompletes : witnessState.halted = false := rfl
theorem witness_CopyReadsItsDescriptor : (0 ≤ (0 : Int) ∧ (0 : Int) ≤ 509) ∧ (0 ≤ (509 : Int) ∧ (509 : Int) ≤ 509) ∧
    ¬ (0 ≤ (510 : Int) ∧ (510 : Int) ≤ 509) ∧ ¬ (0 ≤ (-1 : Int) ∧ (-1 : Int) ≤ 509) := by decide
theorem witness_CopyMovesTheBlock : witnessState.halted = false ∧ copiesFrom (.cpyn 50) 100 witnessState ∧
    copiesFrom (.copy 100) 100 witnessState ∧ descriptorAt 100 10 12 4 witnessState ∧ (1 : Int) ≤ 4 ∧
    blockIsLegal 100 10 4 ∧ blockIsLegal 100 12 4 :=
  ⟨rfl, .inr ⟨50, rfl, by decide⟩, .inl rfl, ⟨by decide, by decide, by decide⟩, by decide,
    by intro x; omega, by intro x; omega⟩

/-- A state with a COPY descriptor at 100. -/
def descriptorState (source target length : Int) : State :=
  { State.reset with mem := ((Memory.write [] 100 (wrap32 source)).write 101 (wrap32 target)).write 102 (wrap32 length) }

theorem witness_IllegalCopyFaults_negative : copiesFrom (.copy 100) 100 (descriptorState 5 6 (-1)) ∧
    descriptorAt 100 5 6 (-1) (descriptorState 5 6 (-1)) ∧ (-1 : Int) < 0 :=
  ⟨.inl rfl, ⟨by decide, by decide, by decide⟩, by decide⟩
theorem witness_IllegalCopyFaults_descriptor : copiesFrom (.copy 100) 100 (descriptorState 102 200 1) ∧
    descriptorAt 100 102 200 1 (descriptorState 102 200 1) ∧ (1 : Int) ≤ 1 ∧
    ¬ (blockIsLegal 100 102 1 ∧ blockIsLegal 100 200 1) :=
  ⟨.inl rfl, ⟨by decide, by decide, by decide⟩, by decide, fun h => by have := h.1 102; omega⟩
theorem witness_IllegalCopyFaults_bounds : descriptorAt 100 507 0 6 (descriptorState 507 0 6) ∧ (1 : Int) ≤ 6 ∧
    ¬ (blockIsLegal 100 507 6 ∧ blockIsLegal 100 0 6) :=
  ⟨⟨by decide, by decide, by decide⟩, by decide, fun h => by have := h.1 512; omega⟩
theorem witness_EmptyCopyOnlyAdvances : (descriptorState 600 (-7) 0).halted = false ∧
    copiesFrom (.copy 100) 100 (descriptorState 600 (-7) 0) ∧
    descriptorAt 100 600 (-7) 0 (descriptorState 600 (-7) 0) :=
  ⟨rfl, .inl rfl, ⟨by decide, by decide, by decide⟩⟩
theorem witness_CpynIsCopyThroughAPointer : memRead 50 witnessState = .ok 100 ∧
    ¬ (0 ≤ (512 : Int) ∧ (512 : Int) ≤ 511) := by decide
theorem witness_AppendCodeRule : State.reset.lastResult = none ∧ State.reset.codeSize < 256 ∧
    256 ≤ fullStore.codeSize ∧
    step State.reset = .next (afterFault State.reset .access) := ⟨rfl, by decide, fullStore_codeSize.ge, rfl⟩
theorem witness_SetDataGetDataRule : (0 ≤ (511 : Int) ∧ (511 : Int) ≤ 511) ∧ (0 : Int) ≠ 511 ∧
    ¬ (0 ≤ (512 : Int) ∧ (512 : Int) ≤ 511) := by decide
theorem witness_AccessorsChangeNothing : (0 ≤ (0 : Int) ∧ (0 : Int) ≤ 511) ∧
    ¬ (0 ≤ (-1 : Int) ∧ (-1 : Int) ≤ 511) := by decide
theorem witness_BootSequenceLoadsTheProgram :
    (∀ op ∈ [HostOp.setData 511 6, .appendCode 0x0000001F00000000#64, .setData 0 5, .setData 511 7], isLoadOp op) ∧
    (appendedWords [HostOp.setData 511 6, .appendCode 0x0000001F00000000#64, .setData 0 5, .setData 511 7]).length ≤ 256 :=
  ⟨by simp [isLoadOp], by decide⟩
theorem witness_BootSequenceLoadsTheProgram_full : (appendedWords (List.replicate 256 (.appendCode 0))).length ≤ 256 :=
  (List.length_filterMap_le _ _).trans List.length_replicate.le
theorem witness_FinishedRunIsFinal : run 1 State.reset = some (afterFault State.reset .access) := rfl
theorem witness_LoadingAnImage : [Instr.lodi (-1), .halt].length ≤ 256 ∧
    (∀ i ∈ [Instr.lodi (-1), .halt], i.wellFormed) ∧
    ∀ p ∈ [((0 : Int), (-5 : Int)), (511, 6)], (0 ≤ p.1 ∧ p.1 ≤ 511) ∧ fits32 p.2 := by decide
theorem witness_AssemblingASource : (∀ i ∈ [Instr.lodi (-1), .halt], i.wellFormed) ∧
    ∀ p ∈ [((0 : Int), (-5 : Int)), (511, 6)], fits32 p.1 ∧ fits32 p.2 := by decide

end Sys2Proof.Machine
end

section
/-! The host's accessors (10_state R20). -/

namespace Sys2Proof.Machine

/-- `isDataIndex` with its upper bound inclusive, as the spec writes the range (10_state R20). -/
theorem isDataIndex_iff {a : Int} : isDataIndex a ↔ 0 ≤ a ∧ a ≤ 511 := by
  have size : (Config.dataSize : Int) = 512 := rfl
  omega

theorem getData_of_index {a : Int} {s : State} (h : isDataIndex a) :
    getData a s = .number (value (s.mem.read a.toNat)) := by
  simp only [getData, memRead_of_index h]

theorem getData_of_not_index {a : Int} {s : State} (h : ¬ isDataIndex a) :
    getData a s = .memoryIndexError := by
  simp only [getData, memRead_of_not_index h]

@[simp] theorem hostCall_getData (a : Int) (s : State) :
    hostCall (.getData a) s = .next (s, getData a s) := rfl

/-- Settles O49: every accessor but `getData` answers a field of the state as it stands; `getData`
answers by whether its index is one of the Data Memory. -/
theorem accessorsChangeNothing : Obligations.AccessorsChangeNothing := by
  intro s
  refine ⟨rfl, rfl, fun a inRange => ?_, fun a outOfRange => ?_, rfl, rfl, rfl⟩
  · rw [hostCall_getData, getData_of_index (isDataIndex_iff.mpr inRange)]
  · rw [hostCall_getData, getData_of_not_index (isDataIndex_iff.not.mpr outOfRange)]

end Sys2Proof.Machine
end

section
/-! The access primitives (20_memory R33 to R35), and that the Code Store is out of their reach (R43). -/

namespace Sys2Proof.Machine

theorem procOf_code {i : Instr} {s t : State} (h : procOf i s = .ok t) : t.code = s.code := by
  obtain accOnly | pcOnly | storeOnly | ⟨-, haltOnly⟩ := procOf_cases h
  · exact accOnly.code
  · exact pcOnly.code
  · exact storeOnly.code
  · exact haltOnly.code

theorem exec_code {i : Instr} {s t : State} (h : exec i s = .next t) : t.code = s.code := by
  obtain ⟨u, completes, rfl⟩ | ⟨f, -, rfl⟩ := exec_cases h
  · rw [completed_code, procOf_code completes]
  · exact takeFault_code s f

theorem step_code {s t : State} (h : step s = .next t) : t.code = s.code := by
  obtain ⟨-, rfl⟩ | ⟨-, f, -, rfl⟩ | ⟨-, i, -, executes⟩ := step_cases h
  · exact stayHalted_code s
  · exact takeFault_code s f
  · exact exec_code executes

theorem setData_code (a : Int) (v : Word) (s : State) : (setData a v s).1.code = s.code := by
  unfold setData
  split
  · next t written =>
    obtain ⟨-, rfl⟩ := memWrite_ok written
    rfl
  · rfl

/-- Settles O13: the frames shared by all procedures keep `code`, and so does taking a fault. -/
theorem storesNeverAffectFetch : Obligations.StoresNeverAffectFetch :=
  ⟨fun _ _ _ => exec_code, fun _ _ => step_code, setData_code⟩

theorem memWrite_of_not_index {a v : Int} {s : State} (h : ¬ isDataIndex a) :
    memWrite a v s = .error .memoryIndex := if_neg h

/-- Settles O24: the write by its read-after-write law, where a 32-bit value is its own wrap. -/
theorem memWriteRule : Obligations.MemWriteRule := by
  intro addr v s fits
  refine ⟨fun inRange => ?_, fun outOfRange => ?_⟩
  · have written := memWrite_of_index (v := v) (s := s) (isDataIndex_iff.mpr inRange)
    refine ⟨_, written, fun b => ?_, rfl⟩
    rw [memRead_memWrite written, value_wrap32 fits]
  · exact memWrite_of_not_index (isDataIndex_iff.not.mpr outOfRange)

theorem codeRead_of_lt {k : Nat} {s : State} (h : k < s.codeSize) :
    codeRead k s = .ok s.code[k] := by
  have populated : s.code[k]? = some s.code[k] := List.getElem?_eq_getElem h
  simp [codeRead, populated]

theorem codeRead_of_neg {i : Int} {s : State} (h : i < 0) : codeRead i s = .error .access :=
  if_neg (Int.not_le.mpr h)

theorem codeRead_of_codeSize_le {k : Nat} {s : State} (h : s.codeSize ≤ k) :
    codeRead k s = .error .access := by
  have unpopulated : s.code[k]? = none := List.getElem?_eq_none h
  simp [codeRead, unpopulated]

/-- Settles O22: an index is negative or a natural number, and then below `codeSize` or not. -/
theorem codeReadRule : Obligations.CodeReadRule := by
  intro i s
  refine ⟨?_, ?_⟩
  · rintro k rfl populated
    exact codeRead_of_lt populated
  · rintro (negative | beyond)
    · exact codeRead_of_neg negative
    · obtain ⟨k, rfl⟩ := Int.eq_ofNat_of_zero_le ((Int.natCast_nonneg _).trans beyond)
      exact codeRead_of_codeSize_le (Int.ofNat_le.mp beyond)

/-- Settles O23: the read by whether its address is a data index; a word's value fits 32 bits. -/
theorem memReadRule : Obligations.MemReadRule := by
  intro addr s
  refine ⟨fun inRange => ⟨?_, fits32_value _⟩, fun outOfRange => ?_⟩
  · exact memRead_of_index (isDataIndex_iff.mpr inRange)
  · exact memRead_of_not_index (isDataIndex_iff.not.mpr outOfRange)

end Sys2Proof.Machine
end

section
/-! Packed words as numbers (30_encoding R51), and the decoder by the rows of the opcode map (R55). -/

namespace Sys2Proof

theorem toNat_zext32_eq_emod (v : Int) : (zext32 v).toNat = (v % 4294967296).toNat :=
  BitVec.toNat_ofInt v

/-- The two halves do not overlap, so joining them is addition. -/
theorem pack_toNat (op a : Int) :
    (pack op a).toNat = (zext32 op).toNat * 4294967296 + (zext32 a).toNat := by
  rw [pack, BitVec.toNat_append, ← Nat.shiftLeft_add_eq_or_of_lt (zext32 a).isLt, Nat.shiftLeft_eq]

theorem unpack_pack {op : Nat} {a : Int} (inField : op < 4294967296) (fits : fits32 a) :
    unpack (pack op a) = (op, a) := by
  rw [unpack, opcodeField_pack, argField_pack, toNat_zext32 inField, sext32_zext32 fits]

theorem decode_eq_ok_iff {w : CodeWord} {i : Instr} :
    decode w = .ok i ↔ tableInstr (opcodeField w) (argField w) = some i := by
  unfold decode
  split
  · next j row => simp [row]
  · next noRow => rw [noRow]; split <;> simp

/-- A packed word with a 32-bit argument selects the row of its opcode. -/
theorem decode_pack {op : Nat} {a : Int} {i : Instr} (inField : op < 4294967296) (fits : fits32 a)
    (row : tableInstr op a = some i) : decode (pack op a) = .ok i := by
  rw [decode_eq_ok_iff, opcodeField_pack, argField_pack, toNat_zext32 inField, sext32_zext32 fits, row]

/-- Where the first components are distinct, a search by one of them finds its own entry. -/
theorem find_fst_of_nodup {β : Type} {l : List (Nat × β)} {row : Nat × β}
    (distinct : (l.map Prod.fst).Nodup) (h : row ∈ l) :
    (l.find? fun r => r.1 == row.1) = some row := by
  induction l with
  | nil => cases h
  | cons r rest ih =>
    obtain ⟨fresh, distinctRest⟩ := List.nodup_cons.mp distinct
    obtain rfl | later := List.mem_cons.mp h
    · exact List.find?_cons_of_pos (beq_self_eq_true _)
    · have other : r.1 ≠ row.1 := fun same => fresh (same ▸ List.mem_map_of_mem later)
      rw [List.find?_cons_of_neg (by simpa using other), ih distinctRest later]

theorem opcode_of_row : ∀ row ∈ opcodeTable, ∀ a, (row.2.2.2 a).opcode = row.1 := by
  simp [opcodeTable, Instr.opcode]

section
variable {row : Nat × List Char × ArgClass × (Int → Instr)}

/-- No opcode of the map has two rows. -/
theorem find_opcodeTable (h : row ∈ opcodeTable) : (opcodeTable.find? fun r => r.1 == row.1) = some row :=
  find_fst_of_nodup (by decide) h

theorem tableInstr_of_row (h : row ∈ opcodeTable) (a : Int) : tableInstr row.1 a = some (row.2.2.2 a) := by
  rw [tableInstr, find_opcodeTable h, Option.map_some]

theorem mnemonic_of_row (h : row ∈ opcodeTable) (a : Int) : (row.2.2.2 a).mnemonic = row.2.1 := by
  rw [Instr.mnemonic, opcode_of_row row h, find_opcodeTable h, Option.map_some, Option.getD_some]

theorem argClass_of_row (h : row ∈ opcodeTable) (a : Int) : (row.2.2.2 a).argClass = row.2.2.1 := by
  rw [Instr.argClass, opcode_of_row row h, find_opcodeTable h, Option.map_some, Option.getD_some]

end

theorem inOpcodeSet_of_row : ∀ row ∈ opcodeTable, Machine.inOpcodeSet row.1 := by
  unfold Machine.inOpcodeSet
  decide

theorem inOpcodeSet_of_tableInstr {op : Nat} {a : Int} {i : Instr} (h : tableInstr op a = some i) :
    Machine.inOpcodeSet op := by
  obtain ⟨row, found, -⟩ := Option.map_eq_some_iff.mp h
  have sameOpcode : row.1 = op := by simpa using List.find?_some found
  exact sameOpcode ▸ inOpcodeSet_of_row row (List.mem_of_find?_eq_some found)

theorem opcode_lt_of_inOpcodeSet {op : Nat} (h : Machine.inOpcodeSet op) : op < 32 := by
  unfold Machine.inOpcodeSet at h
  omega

end Sys2Proof

namespace Sys2Proof.Machine

/-- Settles O1: `pack` is the sum of its two halves, and the field lemmas take them out again. -/
theorem packThenUnpack : Obligations.PackThenUnpack := by
  refine ⟨fun op a => ?_, fun w => rfl, fun op a => unpack_pack, by decide⟩
  rw [pack_toNat, toNat_zext32_eq_emod, toNat_zext32_eq_emod]
  omega

/-- Settles O4: the rows written out in the statement are the model's, whose mnemonics are lists of
characters. -/
theorem opcodeMap : Obligations.OpcodeMap := by
  refine ⟨fun row listed a fits => ?_, fun w ⟨i, decodes⟩ => ?_⟩
  · have inTable : (row.1, row.2.1.toList, row.2.2) ∈ opcodeTable :=
      List.mem_map_of_mem (f := fun r => (r.1, r.2.1.toList, r.2.2)) listed
    refine ⟨decode_pack ?_ fits (tableInstr_of_row inTable a), mnemonic_of_row inTable a,
      argClass_of_row inTable a⟩
    have := opcode_lt_of_inOpcodeSet (inOpcodeSet_of_row _ inTable)
    omega
  · exact inOpcodeSet_of_tableInstr (decode_eq_ok_iff.mp decodes)

end Sys2Proof.Machine
end

section
/-! The step (40_step R80 to R82): what is fetched is run. -/

namespace Sys2Proof.Machine

theorem step_of_fetchInstr_ok {i : Instr} {s : State} (running : s.halted = false)
    (fetched : fetchInstr s = .ok i) : step s = exec i s := by
  simp [step, running, fetched]

theorem step_of_fetchInstr_error {f : Fault} {s : State} (running : s.halted = false)
    (faults : fetchInstr s = .error f) : step s = .next (s.takeFault f) := by
  simp [step, running, faults]

theorem fetchInstr_of_codeRead_error {f : Fault} {s : State}
    (faults : codeRead (value s.pc) s = .error f) : fetchInstr s = .error f := by
  simp [fetchInstr, faults]

theorem fetchInstr_eq_ok_iff {i : Instr} {s : State} :
    fetchInstr s = .ok i ↔ ∃ w, codeRead (value s.pc) s = .ok w ∧ decode w = .ok i := by
  unfold fetchInstr
  split
  · next noWord => simp [noWord]
  · next w word =>
    rw [word]
    split
    · next decodes => simp [decodes]
    · next rejects => simp [rejects]

theorem codeRead_of_getElem? {k : Nat} {w : CodeWord} {s : State} (h : s.code[k]? = some w) :
    codeRead k s = .ok w := by
  simp [codeRead, h]

/-- Settles O7: the fetch reads `code[pc]` where it is populated, and raises AccessFault elsewhere. -/
theorem stepRunsTheFetchedInstruction : Obligations.StepRunsTheFetchedInstruction := by
  intro s running
  refine ⟨fun k w i atIndex populated decodes => ?_, fun outOfRange => ?_⟩
  · have word : codeRead (value s.pc) s = .ok w := atIndex ▸ codeRead_of_getElem? populated
    exact step_of_fetchInstr_ok running (fetchInstr_eq_ok_iff.mpr ⟨w, word, decodes⟩)
  · have noWord : codeRead (value s.pc) s = .error .access := (codeReadRule _ s).2 outOfRange
    exact step_of_fetchInstr_error running (fetchInstr_of_codeRead_error noWord)

end Sys2Proof.Machine
end

section
/-! What the decoder answers is well formed: its argument is the word's 32-bit field, or 0 (30_encoding R51, R54). -/

namespace Sys2Proof

theorem fits32_argField (w : CodeWord) : fits32 (argField w) := by
  rw [argField, sext32_eq_toInt]
  exact Machine.fits32_value _

theorem arg_of_row : ∀ row ∈ opcodeTable, ∀ a, (row.2.2.2 a).arg = 0 ∨ (row.2.2.2 a).arg = a := by
  simp [opcodeTable, Instr.arg]

theorem wellFormed_of_decode {w : CodeWord} {i : Instr} (h : decode w = .ok i) : i.wellFormed := by
  obtain ⟨row, found, rfl⟩ := Option.map_eq_some_iff.mp (decode_eq_ok_iff.mp h)
  obtain zero | field := arg_of_row row (List.mem_of_find?_eq_some found) (argField w)
  · rw [Instr.wellFormed, zero]
    decide
  · rw [Instr.wellFormed, field]
    exact fits32_argField w

end Sys2Proof
end

section
/-! The pc rule (40_step R86). -/

namespace Sys2Proof.Machine

theorem wellFormed_of_fetchInstr {i : Instr} {s : State} (h : fetchInstr s = .ok i) :
    i.wellFormed := by
  obtain ⟨w, -, decodes⟩ := fetchInstr_eq_ok_iff.mp h
  exact wellFormed_of_decode decodes

theorem populated_of_codeRead_ok {k : Int} {w : CodeWord} {s : State} (h : codeRead k s = .ok w) :
    0 ≤ k ∧ k < s.codeSize := by
  by_contra outOfRange
  have faults : codeRead k s = .error .access := (codeReadRule k s).2 (by omega)
  rw [faults] at h
  cases h

theorem populated_of_fetchInstr {i : Instr} {s : State} (h : fetchInstr s = .ok i) :
    0 ≤ value s.pc ∧ value s.pc < s.codeSize := by
  obtain ⟨w, word, -⟩ := fetchInstr_eq_ok_iff.mp h
  exact populated_of_codeRead_ok word

/-- Adding 1 wraps at the greatest word only. -/
theorem value_add_one {w : Word} (h : value w < 2147483647) : value (w + 1) = value w + 1 := by
  have fits := fits32_value w
  have sum : w + 1 = wrap32 (value w + 1) := by simp [wrap32, value, BitVec.ofInt_add]
  rw [sum, value_wrap32 (by omega)]

/-- An instruction fetched from a Code Store within its capacity stands where `pc + 1` cannot wrap
(10_state R13). -/
theorem value_pc_add_one {i : Instr} {s : State} (fitsStore : s.codeSize ≤ Config.codeCapacity)
    (fetched : fetchInstr s = .ok i) : value (s.pc + 1) = value s.pc + 1 := by
  have capacity : Config.codeCapacity = 256 := rfl
  have := populated_of_fetchInstr fetched
  exact value_add_one (by omega)

theorem value_haltPcAdvance : value haltPcAdvance = 0 ∨ value haltPcAdvance = 1 := by
  unfold haltPcAdvance
  split
  · exact .inr rfl
  · exact .inl rfl

theorem value_add_haltPcAdvance {w : Word} (h : value (w + 1) = value w + 1) :
    value (w + haltPcAdvance) = value w + value haltPcAdvance := by
  unfold haltPcAdvance
  split
  · exact h
  · simp [value]

theorem fits32_of_memRead_ok {a v : Int} {s : State} (h : memRead a s = .ok v) : fits32 v := by
  obtain ⟨-, rfl⟩ := memRead_ok h
  exact fits32_value _

theorem jmpi_pc {a : Int} {s t : State} (h : procJmpi a s = .ok t) : t.pc = wrap32 a := by
  cases h
  rfl

theorem jump_pc {a : Int} {s t : State} (h : procJump a s = .ok t) :
    memRead a s = .ok (value t.pc) := by
  obtain ⟨target, read, jumps⟩ := delegate_ok h
  rw [jmpi_pc jumps, value_wrap32 (fits32_of_memRead_ok read), read]

theorem jmzi_pc {a : Int} {s t : State} (h : procJmzi a s = .ok t) :
    t.pc = if value s.acc = 0 then wrap32 a else s.pc + 1 := by
  cases h
  by_cases zero : value s.acc = 0 <;> simp [State.accIsZero, zero]

theorem jmpz_pc {a : Int} {s t : State} (h : procJmpz a s = .ok t) :
    if value s.acc = 0 then memRead a s = .ok (value t.pc) else t.pc = s.pc + 1 := by
  obtain ⟨target, read, jumps⟩ := delegate_ok h
  rw [jmzi_pc jumps]
  split
  · rw [value_wrap32 (fits32_of_memRead_ok read), read]
  · rfl

theorem halt_pc {s t : State} (h : procHalt s = .ok t) : t.pc = s.pc + haltPcAdvance := by
  cases h
  rfl

/-- The instructions with a pc rule of their own: the exceptions that R86 lists. -/
def setsPc : Instr → Prop
  | .jmpi _ | .jump _ | .jmzi _ | .jmpz _ | .halt => True
  | _ => False

theorem procOf_pc_of_not_setsPc {i : Instr} {s t : State} (ordinary : ¬ setsPc i)
    (h : procOf i s = .ok t) : t.pc = s.pc + 1 := by
  cases i with
  | jmpi | jump | jmzi | jmpz | halt => exact absurd trivial ordinary
  | nop => cases h; rfl
  | lodi => exact (lodi_accOnly h).pc
  | lod => exact (lod_accOnly h).pc
  | lodn => exact (lodn_accOnly h).pc
  | addi => exact (addi_accOnly h).pc
  | add => exact (add_accOnly h).pc
  | addn => exact (addn_accOnly h).pc
  | subi => exact (subi_accOnly h).pc
  | sub => exact (sub_accOnly h).pc
  | subn => exact (subn_accOnly h).pc
  | muli => exact (muli_accOnly h).pc
  | mul => exact (mul_accOnly h).pc
  | muln => exact (muln_accOnly h).pc
  | divi => exact (divi_accOnly h).pc
  | div => exact (div_accOnly h).pc
  | divn => exact (divn_accOnly h).pc
  | andi => exact (andi_accOnly h).pc
  | and => exact (and_accOnly h).pc
  | not => exact (not_accOnly h).pc
  | cmpl => exact (cmpl_accOnly h).pc
  | cmpz => exact (cmpz_accOnly h).pc
  | sto => exact (sto_storeOnly h).pc
  | ston => exact (ston_storeOnly h).pc
  | copy => exact (copy_storeOnly h).pc
  | cpyn => exact (cpyn_storeOnly h).pc

/-- A procedure that is completed does not end its step in a fault. -/
theorem not_faulted_completed (s : State) : ¬ s.completed.faulted := by
  rintro ⟨f, result⟩
  rw [completed_lastResult] at result
  split at result <;> cases result

/-- Settles O12: by the pc lemma of the fetched instruction; what is fetched is well formed, so an
immediate target is its own wrap, and stands low enough that `pc + 1` does not wrap. -/
theorem pcRule : Obligations.PcRule := by
  intro s t i running fitsStore fetched steps
  rw [step_of_fetchInstr_ok running fetched] at steps
  obtain ⟨u, completes, rfl⟩ | ⟨f, -, rfl⟩ := exec_cases steps
  · refine ⟨fun faulted => absurd faulted (not_faulted_completed u), fun _ => ?_⟩
    have plusOne := value_pc_add_one fitsStore fetched
    have fits := wellFormed_of_fetchInstr fetched
    rw [completed_pc]
    cases i with
    | jmpi a => exact (congrArg value (jmpi_pc completes)).trans (value_wrap32 fits)
    | jump a => exact jump_pc completes
    | jmzi a =>
      have target : value (wrap32 a) = a := value_wrap32 fits
      rw [jmzi_pc completes, apply_ite value, target, plusOne]
    | jmpz a =>
      have rule := jmpz_pc completes
      by_cases zero : value s.acc = 0
      · simp only [zero, if_true] at rule ⊢
        exact rule
      · simp only [zero, if_false] at rule ⊢
        rw [rule, plusOne]
    | halt =>
      refine ⟨?_, value_haltPcAdvance⟩
      rw [halt_pc completes, value_add_haltPcAdvance plusOne]
    | _ => exact (congrArg value (procOf_pc_of_not_setsPc id completes)).trans plusOne
  · exact ⟨fun _ => takeFault_pc s f, fun noFault => absurd ⟨f, rfl⟩ noFault⟩

end Sys2Proof.Machine
end

section
/-! Running an instruction forward from its procedure, and the addressing modes as delegation (40_step R80, R84, R85). -/

namespace Sys2Proof.Machine

theorem exec_of_procOf_ok {i : Instr} {s t : State} (h : procOf i s = .ok t) :
    exec i s = .next t.completed := by
  rw [exec_eq_attempt, h, attempt]

theorem exec_of_procOf_error {i : Instr} {s : State} {f : Fault} (h : procOf i s = .error f) :
    exec i s = .next (s.takeFault f) := by
  rw [exec_eq_attempt, h, attempt]

theorem completed_of_running {s : State} (running : s.halted = false) :
    s.completed = { s with lastResult := some .running } := by
  simp [State.completed, running]

section
variable {p : Int → State → Except Fault State} {arg : Int} {s : State}

theorem delegate_of_memRead_ok {v : Int} (read : memRead arg s = .ok v) :
    delegate p arg s = p v s := by
  simp only [delegate, read]

theorem delegate_of_memRead_error {f : Fault} (faults : memRead arg s = .error f) :
    delegate p arg s = .error f := by
  simp only [delegate, faults]

end

theorem operand_indirect_ok {arg v : Int} {s : State} (h : operand .indirect arg s = .ok v) :
    ∃ pointer, memRead arg s = .ok pointer ∧ memRead pointer s = .ok v := by
  simp only [operand] at h
  split at h
  · next pointer read => exact ⟨pointer, read, h⟩
  · cases h

theorem operand_indirect_error {arg : Int} {s : State} {f : Fault}
    (h : operand .indirect arg s = .error f) :
    memRead arg s = .error f ∨ ∃ pointer, memRead arg s = .ok pointer ∧ memRead pointer s = .error f := by
  simp only [operand] at h
  split at h
  · next pointer read => exact .inr ⟨pointer, read, h⟩
  · next faults => exact .inl (faults.trans h)

/-- An operand fits 32 bits: an immediate one because its encoding does, a cell because it is a word. -/
theorem fits32_of_operand_ok {m : Mode} {arg v : Int} {s : State} (fits : fits32 arg)
    (h : operand m arg s = .ok v) : fits32 v := by
  cases m with
  | immediate => cases h; exact fits
  | direct => exact fits32_of_memRead_ok h
  | indirect =>
    obtain ⟨pointer, -, read⟩ := operand_indirect_ok h
    exact fits32_of_memRead_ok read

/-- The procedure of each addressing mode's form, from that of the immediate form (R85). -/
def byMode (p : Int → State → Except Fault State) : Mode → Int → State → Except Fault State
  | .immediate => p
  | .direct => delegate p
  | .indirect => delegate (delegate p)

section
variable {p : Int → State → Except Fault State} {m : Mode} {arg : Int} {s : State}

theorem byMode_of_operand_ok {v : Int} (h : operand m arg s = .ok v) : byMode p m arg s = p v s := by
  cases m with
  | immediate => cases h; rfl
  | direct => exact delegate_of_memRead_ok h
  | indirect =>
    obtain ⟨pointer, readPointer, read⟩ := operand_indirect_ok h
    exact (delegate_of_memRead_ok readPointer).trans (delegate_of_memRead_ok read)

theorem byMode_of_operand_error {f : Fault} (h : operand m arg s = .error f) :
    byMode p m arg s = .error f := by
  cases m with
  | immediate => cases h
  | direct => exact delegate_of_memRead_error h
  | indirect =>
    obtain faults | ⟨pointer, readPointer, faults⟩ := operand_indirect_error h
    · exact delegate_of_memRead_error faults
    · exact (delegate_of_memRead_ok readPointer).trans (delegate_of_memRead_error faults)

end

/-- An instruction that writes `acc` and advances ends a running engine's step as `accWritten` says. -/
theorem completed_setAcc_advance {s : State} (running : s.halted = false) (v : Int) :
    (s.setAcc v).advance.completed = accWritten s v :=
  completed_of_running running

end Sys2Proof.Machine
end

section
/-! Loads and stores (41_load_store R100 to R104). -/

namespace Sys2Proof.Machine

theorem procOf_loadForm (m : Mode) (arg : Int) (s : State) :
    procOf (loadForm m arg) s = byMode procLodi m arg s := by
  cases m <;> rfl

/-- Settles O28: each load is LODI on its operand, whose value fits 32 bits and is loaded unchanged. -/
theorem loadsComplete : Obligations.LoadsComplete := by
  refine ⟨fun a => ⟨rfl, rfl, rfl⟩, fun m arg s running fits => ⟨fun v resolves => ?_, fun f faults => ?_⟩⟩
  · have loads : procOf (loadForm m arg) s = .ok (s.setAcc v).advance :=
      (procOf_loadForm m arg s).trans (byMode_of_operand_ok resolves)
    refine ⟨accWritten s v, ?_, value_wrap32 (fits32_of_operand_ok fits resolves), rfl⟩
    rw [exec_of_procOf_ok loads, completed_setAcc_advance running]
  · exact exec_of_procOf_error ((procOf_loadForm m arg s).trans (byMode_of_operand_error faults))

theorem procSto_of_memWrite_ok {a : Int} {s t : State} (written : memWrite a (value s.acc) s = .ok t) :
    procSto a s = .ok t.advance := by
  simp only [procSto, written]

theorem procSto_of_not_index {a : Int} {s : State} (h : ¬ isDataIndex a) :
    procSto a s = .error .memoryIndex := by
  simp only [procSto, memWrite_of_not_index h]

/-- STO at an address and STON through a cell that holds it run one procedure (R104). -/
theorem procOf_eq_procSto {i : Instr} {addr : Int} {s : State}
    (storesAt : i = .sto addr ∨ ∃ a, i = .ston a ∧ memRead a s = .ok addr) :
    procOf i s = procSto addr s := by
  obtain rfl | ⟨a, rfl, pointer⟩ := storesAt
  · rfl
  · exact delegate_of_memRead_ok pointer

/-- Settles O29: STON is STO at its pointer, and STO is the write of `acc` followed by the advance, so
its reads are those of the write. -/
theorem storesComplete : Obligations.StoresComplete := by
  refine ⟨fun a => ⟨rfl, rfl⟩, fun i addr s running storesAt => ⟨fun inRange => ?_, fun outOfRange => ?_⟩,
    fun a s outOfRange => ?_⟩
  · have written := memWrite_of_index (v := value s.acc) (s := s) (isDataIndex_iff.mpr inRange)
    have stores := (procOf_eq_procSto storesAt).trans (procSto_of_memWrite_ok written)
    refine ⟨_, exec_of_procOf_ok stores, fun b => ?_, completed_of_running running⟩
    have reads := memRead_memWrite written b
    rw [value_wrap32 (fits32_value s.acc)] at reads
    exact reads
  · have faults := procSto_of_not_index (s := s) (isDataIndex_iff.not.mpr outOfRange)
    exact exec_of_procOf_error ((procOf_eq_procSto storesAt).trans faults)
  · have noPointer := memRead_of_not_index (s := s) (isDataIndex_iff.not.mpr outOfRange)
    exact exec_of_procOf_error (i := .ston a) (delegate_of_memRead_error noPointer)

end Sys2Proof.Machine
end

section
/-! Jumps (42_jump R110 to R112). -/

namespace Sys2Proof.Machine

/-- A jump ends a running engine's step as `pcWritten` says. -/
theorem completed_jumpTo {s : State} (running : s.halted = false) (target : Int) :
    (s.jumpTo target).completed = pcWritten s (wrap32 target) :=
  completed_of_running running

/-- So does a jump that is not taken. -/
theorem completed_advance {s : State} (running : s.halted = false) :
    s.advance.completed = pcWritten s (s.pc + 1) :=
  completed_of_running running

theorem procJmzi_of_acc_zero {s : State} (zero : value s.acc = 0) (arg : Int) :
    procJmzi arg s = .ok (s.jumpTo arg) := by
  simp [procJmzi, State.accIsZero, zero]

theorem procJmzi_of_acc_ne_zero {s : State} (nonzero : value s.acc ≠ 0) (arg : Int) :
    procJmzi arg s = .ok s.advance := by
  simp [procJmzi, State.accIsZero, nonzero]

/-- R110: JMPI's target is not checked. -/
theorem exec_jmpi {s : State} (running : s.halted = false) (arg : Int) :
    exec (.jmpi arg) s = .next (pcWritten s (wrap32 arg)) := by
  have jumps : procOf (.jmpi arg) s = .ok (s.jumpTo arg) := rfl
  rw [exec_of_procOf_ok jumps, completed_jumpTo running]

/-- R111: JUMP is JMPI on the cell at its argument. -/
theorem exec_jump_of_memRead_ok {arg v : Int} {s : State} (running : s.halted = false)
    (read : memRead arg s = .ok v) : exec (.jump arg) s = .next (pcWritten s (wrap32 v)) := by
  have jumps : procOf (.jump arg) s = .ok (s.jumpTo v) := delegate_of_memRead_ok read
  rw [exec_of_procOf_ok jumps, completed_jumpTo running]

theorem exec_jump_of_not_index {arg : Int} {s : State} (h : ¬ isDataIndex arg) :
    exec (.jump arg) s = .next (afterFault s .memoryIndex) :=
  exec_of_procOf_error (i := .jump arg) (delegate_of_memRead_error (memRead_of_not_index h))

/-- R112: JMZI jumps or advances by the accumulator. -/
theorem exec_jmzi {s : State} (running : s.halted = false) (arg : Int) :
    exec (.jmzi arg) s =
      .next (pcWritten s (if value s.acc = 0 then wrap32 arg else s.pc + 1)) := by
  by_cases zero : value s.acc = 0
  · have jumps : procOf (.jmzi arg) s = .ok (s.jumpTo arg) := procJmzi_of_acc_zero zero arg
    rw [exec_of_procOf_ok jumps, completed_jumpTo running, if_pos zero]
  · have advances : procOf (.jmzi arg) s = .ok s.advance := procJmzi_of_acc_ne_zero zero arg
    rw [exec_of_procOf_ok advances, completed_advance running, if_neg zero]

/-- A target outside the populated Code Store faults when it is fetched (R110). -/
theorem step_pcWritten_of_unpopulated {target : Int} {s : State} (running : s.halted = false)
    (fits : fits32 target) (outside : target < 0 ∨ (s.codeSize : Int) ≤ target) :
    step (pcWritten s (wrap32 target)) =
      .next (afterFault (pcWritten s (wrap32 target)) .access) := by
  refine (stepRunsTheFetchedInstruction (pcWritten s (wrap32 target)) running).2 ?_
  have pc : value (pcWritten s (wrap32 target)).pc = target := value_wrap32 fits
  rw [pc]
  exact outside

/-- Settles O30: each jump by its own rule; the value JUMP reads and a 32-bit argument are their own
wraps, and an unpopulated target faults at the next fetch. -/
theorem jumpsComplete : Obligations.JumpsComplete := by
  refine ⟨fun a => ⟨rfl, rfl, rfl⟩, fun arg s running =>
    ⟨exec_jmpi running arg, exec_jmzi running arg, fun v read => ?_, fun outOfRange => ?_,
      fun fits => ?_⟩⟩
  · exact ⟨exec_jump_of_memRead_ok running read, value_wrap32 (fits32_of_memRead_ok read)⟩
  · exact exec_jump_of_not_index (isDataIndex_iff.not.mpr outOfRange)
  · exact ⟨value_wrap32 fits, step_pcWritten_of_unpopulated running fits⟩

end Sys2Proof.Machine
end

section
/-! The decoder on the rows that drop their argument (30_encoding R54). -/

namespace Sys2Proof

/-- An opcode whose row does not use the argument decodes whatever the argument bits are. -/
theorem decode_pack_of_row_ignores_arg {op : Nat} {i : Instr} (inField : op < 4294967296)
    (row : ∀ b, tableInstr op b = some i) (a : Int) : decode (pack op a) = .ok i := by
  rw [decode_eq_ok_iff, opcodeField_pack, toNat_zext32 inField, row]

end Sys2Proof
end

section
/-! Logic and compare (44_logic_compare R140 to R144). -/

namespace Sys2Proof.Machine

theorem truth_decide (p : Prop) [Decidable p] : truth (decide p) = if p then 1 else 0 := by
  simp only [truth, decide_eq_true_eq]

theorem truth_isNonzero_and (v w : Int) :
    truth (isNonzero v && isNonzero w) = if v ≠ 0 ∧ w ≠ 0 then 1 else 0 := by
  rw [← truth_decide, Bool.decide_and, isNonzero, isNonzero]

theorem truth_not_isNonzero (v : Int) : truth (!isNonzero v) = if v = 0 then 1 else 0 := by
  rw [← truth_decide, isNonzero, decide_not, Bool.not_not]

section
variable {i : Instr} {p : Int → State → Except Fault State} {arg v : Int} {s : State}

theorem exec_of_procOf_setAcc (running : s.halted = false)
    (writes : procOf i s = .ok (s.setAcc v).advance) : exec i s = .next (accWritten s v) := by
  rw [exec_of_procOf_ok writes, completed_setAcc_advance running]

/-- A delegating instruction faults at a cell outside the Data Memory, whatever it delegates to (R174). -/
theorem exec_of_delegate_not_index (delegates : procOf i s = delegate p arg s)
    (h : ¬ isDataIndex arg) : exec i s = .next (afterFault s .memoryIndex) :=
  exec_of_procOf_error (delegates.trans (delegate_of_memRead_error (memRead_of_not_index h)))

end

/-- R140: ANDI writes 1 when the argument and the accumulator are both true. -/
theorem procAndi_eq (arg : Int) (s : State) :
    procAndi arg s = .ok (s.setAcc (if arg ≠ 0 ∧ value s.acc ≠ 0 then 1 else 0)).advance := by
  rw [procAndi, truth_isNonzero_and]

/-- R142: NOT writes 1 when the accumulator is false. -/
theorem procNot_eq (s : State) :
    procNot s = .ok (s.setAcc (if value s.acc = 0 then 1 else 0)).advance := by
  rw [procNot, truth_not_isNonzero]

/-- Settles O37: ANDI and NOT by their truth values, AND as ANDI on the cell at its argument; the row of
NOT drops the argument. -/
theorem logicCompletes : Obligations.LogicCompletes := by
  refine ⟨fun a => ⟨rfl, rfl⟩, rfl, decode_pack_of_row_ignores_arg (by decide) fun _ => rfl,
    fun arg s running => ⟨?_, fun v read => ?_, fun outOfRange => ?_, ?_⟩⟩
  · exact exec_of_procOf_setAcc (i := .andi arg) running (procAndi_eq arg s)
  · have reads : procOf (.and arg) s = procAndi v s := delegate_of_memRead_ok read
    exact exec_of_procOf_setAcc running (reads.trans (procAndi_eq v s))
  · have delegates : procOf (.and arg) s = delegate procAndi arg s := rfl
    exact exec_of_delegate_not_index delegates (isDataIndex_iff.not.mpr outOfRange)
  · exact exec_of_procOf_setAcc (i := .not) running (procNot_eq s)

/-- What CMPL and CMPZ do with the cell they have read: `acc` gets the truth value of a test of it. -/
def writeTest (test : Int → Bool) (v : Int) (s : State) : Except Fault State :=
  .ok (s.setAcc (truth (test v))).advance

theorem procOf_cmpl (arg : Int) (s : State) :
    procOf (.cmpl arg) s = delegate (writeTest fun v => v < 0) arg s := rfl

theorem procOf_cmpz (arg : Int) (s : State) :
    procOf (.cmpz arg) s = delegate (writeTest fun v => v = 0) arg s := rfl

/-- A compare writes the truth value of its test of the cell, without reading `acc` (R143, R144). -/
theorem exec_compare_of_memRead_ok {i : Instr} {test : Int → Bool} {arg v : Int} {s : State}
    (compares : procOf i s = delegate (writeTest test) arg s) (running : s.halted = false)
    (read : memRead arg s = .ok v) : exec i s = .next (accWritten s (truth (test v))) :=
  exec_of_procOf_setAcc running (compares.trans (delegate_of_memRead_ok read))

/-- Settles O38: CMPL and CMPZ are one compare with two tests, and both fault with the read. -/
theorem comparesComplete : Obligations.ComparesComplete := by
  refine ⟨fun a => ⟨rfl, rfl⟩, fun arg s running => ⟨fun v read => ⟨?_, ?_⟩, fun outOfRange => ?_⟩⟩
  · rw [exec_compare_of_memRead_ok (procOf_cmpl arg s) running read, truth_decide]
  · rw [exec_compare_of_memRead_ok (procOf_cmpz arg s) running read, truth_decide]
  · have noCell := isDataIndex_iff.not.mpr outOfRange
    exact ⟨exec_of_delegate_not_index (procOf_cmpl arg s) noCell,
      exec_of_delegate_not_index (procOf_cmpz arg s) noCell⟩

end Sys2Proof.Machine
end

section
/-! The block copy's descriptor (45_block_copy R151), and CPYN as COPY through a pointer (R157). -/

namespace Sys2Proof.Machine

/-- What COPY reads is the descriptor in memory. -/
theorem readDescriptor_of_descriptorAt {a source target length : Int} {s : State}
    (h : descriptorAt a source target length s) :
    readDescriptor a s = .ok (source, target, length) := by
  obtain ⟨readSource, readTarget, readLength⟩ := h
  simp only [readDescriptor, readSource, readTarget, readLength]

/-- Up to 509 all three cells of a descriptor are in the Data Memory. -/
theorem exists_descriptorAt {a : Int} (s : State) (h : 0 ≤ a ∧ a ≤ 509) :
    ∃ source target length, descriptorAt a source target length s :=
  ⟨_, _, _, memRead_of_index (isDataIndex_iff.mpr (by omega)),
    memRead_of_index (isDataIndex_iff.mpr (by omega)),
    memRead_of_index (isDataIndex_iff.mpr (by omega))⟩

theorem fits32_of_descriptorAt {a source target length : Int} {s : State}
    (h : descriptorAt a source target length s) : fits32 source ∧ fits32 target ∧ fits32 length := by
  obtain ⟨readSource, readTarget, readLength⟩ := h
  exact ⟨fits32_of_memRead_ok readSource, fits32_of_memRead_ok readTarget,
    fits32_of_memRead_ok readLength⟩

/-- The first cell of the three that is no data index gives the fault: the one at `a`, or past the end
the one at `a + 1` (for 511) or at `a + 2` (for 510). -/
theorem readDescriptor_of_not_index {a : Int} (s : State) (h : ¬ (0 ≤ a ∧ a ≤ 509)) :
    readDescriptor a s = .error .memoryIndex := by
  by_cases first : isDataIndex a
  · by_cases second : isDataIndex (a + 1)
    · have third : ¬ isDataIndex (a + 2) := by
        rw [isDataIndex_iff] at first ⊢
        omega
      simp only [readDescriptor, memRead_of_index first, memRead_of_index second,
        memRead_of_not_index third]
    · simp only [readDescriptor, memRead_of_index first, memRead_of_not_index second]
  · simp only [readDescriptor, memRead_of_not_index first]

theorem procCopy_of_readDescriptor_error {a : Int} {s : State} {f : Fault}
    (h : readDescriptor a s = .error f) : procCopy a s = .error f := by
  simp only [procCopy, h]

/-- Settles O41: COPY reads the three words where all of them are in the Data Memory, each the value of
a word; elsewhere one of the reads fails, and COPY with it. -/
theorem copyReadsItsDescriptor : Obligations.CopyReadsItsDescriptor := by
  refine fun a s => ⟨fun inRange => ?_, fun outOfRange => ?_⟩
  · obtain ⟨source, target, length, descriptor⟩ := exists_descriptorAt s inRange
    exact ⟨source, target, length, descriptor, readDescriptor_of_descriptorAt descriptor,
      fits32_of_descriptorAt descriptor⟩
  · have noDescriptor := readDescriptor_of_not_index s outOfRange
    exact exec_of_procOf_error (i := .copy a) (procCopy_of_readDescriptor_error noDescriptor)

/-- Instructions with one procedure have one meaning. -/
theorem exec_congr_procOf {i j : Instr} {s : State} (h : procOf i s = procOf j s) :
    exec i s = exec j s := by
  rw [exec_eq_attempt, exec_eq_attempt, h]

theorem procOf_cpyn (p : Int) (s : State) : procOf (.cpyn p) s = delegate procCopy p s := rfl

/-- R157: CPYN through a cell that holds `a` is COPY at `a`. -/
theorem exec_cpyn_of_memRead_ok {p a : Int} {s : State} (read : memRead p s = .ok a) :
    exec (.cpyn p) s = exec (.copy a) s :=
  exec_congr_procOf (j := .copy a) ((procOf_cpyn p s).trans (delegate_of_memRead_ok read))

/-- Settles O45: CPYN delegates to COPY, and faults with the read of its pointer. -/
theorem cpynIsCopyThroughAPointer : Obligations.CpynIsCopyThroughAPointer := by
  refine ⟨fun p => rfl, fun p s => ⟨fun a read => exec_cpyn_of_memRead_ok read, fun outOfRange => ?_⟩⟩
  exact exec_of_delegate_not_index (procOf_cpyn p s) (isDataIndex_iff.not.mpr outOfRange)

end Sys2Proof.Machine
end

section
/-! NOP (46_nop_halt R160). -/

namespace Sys2Proof.Machine

/-- R160: NOP advances `pc` and touches nothing else. -/
theorem exec_nop {s : State} (running : s.halted = false) :
    exec .nop s = .next (pcWritten s (s.pc + 1)) := by
  have advances : procOf .nop s = .ok s.advance := rfl
  rw [exec_of_procOf_ok advances, completed_advance running]

/-- Settles O39: opcode and argument of NOP pack to the zero word, its row drops the argument, and its
procedure only advances. -/
theorem nopCompletes : Obligations.NopCompletes :=
  ⟨by decide, decode_pack_of_row_ignores_arg (by decide) fun _ => rfl, fun _ running =>
    exec_nop running⟩

end Sys2Proof.Machine
end

section
/-! Taking a fault (60_exceptions R176): the result of a step tells which fault was raised. -/

namespace Sys2Proof.Machine

theorem exec_faulted {i : Instr} {s t : State} {f : Fault} (executes : exec i s = .next t)
    (result : t.lastResult = some (.fault f)) : procOf i s = .error f ∧ t = s.takeFault f := by
  obtain ⟨u, -, rfl⟩ | ⟨g, raises, rfl⟩ := exec_cases executes
  · exact absurd ⟨f, result⟩ (not_faulted_completed u)
  · cases result
    exact ⟨raises, rfl⟩

/-- Settles O11: a fault is taken at the fetch or by the instruction; a step that stays halted has
another result. -/
theorem faultEntry : Obligations.FaultEntry := by
  intro s t f steps result
  obtain ⟨-, rfl⟩ | ⟨-, g, -, rfl⟩ | ⟨-, i, -, executes⟩ := step_cases steps
  · cases result
  · cases result
    rfl
  · exact (exec_faulted executes result).2

end Sys2Proof.Machine
end

section
/-! Every instruction as a simplest form run on its operand (40_step R84, R85). -/

namespace Sys2Proof.Machine

/-- The addressing mode of an instruction in its delegation chain. The chains of STO, COPY and the
compares begin with a form that takes an address or a cell, the others with an immediate form. -/
def modeOf : Instr → Mode
  | .nop | .not | .halt => .immediate
  | .lodi _ | .addi _ | .subi _ | .muli _ | .divi _ | .andi _ | .jmpi _ | .jmzi _ => .immediate
  | .sto _ | .copy _ => .immediate
  | .lod _ | .add _ | .sub _ | .mul _ | .div _ | .and _ | .jump _ | .jmpz _ => .direct
  | .ston _ | .cpyn _ | .cmpl _ | .cmpz _ => .direct
  | .lodn _ | .addn _ | .subn _ | .muln _ | .divn _ => .indirect

/-- The procedure at the end of an instruction's delegation chain. -/
def baseProc : Instr → Int → State → Except Fault State
  | .nop => fun _ => procNop
  | .not => fun _ => procNot
  | .halt => fun _ => procHalt
  | .lodi _ | .lod _ | .lodn _ => procLodi
  | .addi _ | .add _ | .addn _ => procAddi
  | .subi _ | .sub _ | .subn _ => procSubi
  | .muli _ | .mul _ | .muln _ => procMuli
  | .divi _ | .div _ | .divn _ => procDivi
  | .andi _ | .and _ => procAndi
  | .jmpi _ | .jump _ => procJmpi
  | .jmzi _ | .jmpz _ => procJmzi
  | .cmpl _ => writeTest fun v => v < 0
  | .cmpz _ => writeTest fun v => v = 0
  | .sto _ | .ston _ => procSto
  | .copy _ | .cpyn _ => procCopy

theorem procOf_eq_byMode (i : Instr) (s : State) :
    procOf i s = byMode (baseProc i) (modeOf i) i.arg s := by
  cases i <;> rfl

/-- An instruction whose operand cannot be read takes the fault of the read. -/
theorem exec_of_operand_error {i : Instr} {s : State} {f : Fault}
    (faults : operand (modeOf i) i.arg s = .error f) : exec i s = .next (afterFault s f) :=
  exec_of_procOf_error ((procOf_eq_byMode i s).trans (byMode_of_operand_error faults))

theorem memRead_error {a : Int} {s : State} {f : Fault} (h : memRead a s = .error f) :
    f = .memoryIndex := by
  by_cases index : isDataIndex a
  · rw [memRead_of_index index] at h
    cases h
  · rw [memRead_of_not_index index] at h
    cases h
    rfl

theorem operand_error {m : Mode} {arg : Int} {s : State} {f : Fault}
    (h : operand m arg s = .error f) : f = .memoryIndex := by
  cases m with
  | immediate => cases h
  | direct => exact memRead_error h
  | indirect =>
    obtain faults | ⟨pointer, -, faults⟩ := operand_indirect_error h
    · exact memRead_error faults
    · exact memRead_error faults

/-- An instruction faults with the read of its operand, or in its simplest form. -/
theorem procOf_error {i : Instr} {s : State} {f : Fault} (h : procOf i s = .error f) :
    f = .memoryIndex ∨ ∃ v, operand (modeOf i) i.arg s = .ok v ∧ baseProc i v s = .error f := by
  rw [procOf_eq_byMode] at h
  cases resolves : operand (modeOf i) i.arg s with
  | ok v => exact .inr ⟨v, rfl, (byMode_of_operand_ok resolves).symm.trans h⟩
  | error g =>
    rw [byMode_of_operand_error resolves] at h
    cases h
    exact .inl (operand_error resolves)

end Sys2Proof.Machine
end

section
/-! ArithmeticFault (60_exceptions R172): the faults of each simplest form. -/

namespace Sys2Proof.Machine

theorem procSto_error {a : Int} {s : State} {f : Fault} (h : procSto a s = .error f) :
    f = .memoryIndex := by
  by_cases index : isDataIndex a
  · rw [procSto_of_memWrite_ok (memWrite_of_index index)] at h
    cases h
  · rw [procSto_of_not_index index] at h
    cases h
    rfl

theorem readDescriptor_error {a : Int} {s : State} {f : Fault} (h : readDescriptor a s = .error f) :
    f = .memoryIndex := by
  by_cases inRange : 0 ≤ a ∧ a ≤ 509
  · obtain ⟨source, target, length, descriptor⟩ := exists_descriptorAt s inRange
    rw [readDescriptor_of_descriptorAt descriptor] at h
    cases h
  · rw [readDescriptor_of_not_index s inRange] at h
    cases h
    rfl

theorem moveCells_error {source target : Int} {is : List Nat} {s : State} {f : Fault}
    (h : moveCells source target is s = .error f) : f = .memoryIndex := by
  induction is generalizing s with
  | nil => cases h
  | cons i rest ih =>
    unfold moveCells at h
    split at h
    · next noRead =>
      cases h
      exact memRead_error noRead
    · split at h
      · next noWrite =>
        cases h
        exact (memWrite_error noWrite).2
      · exact ih h

theorem copyBlock_error {a source target length : Int} {s : State} {f : Fault}
    (h : copyBlock a source target length s = .error f) : f = .range ∨ f = .memoryIndex := by
  unfold copyBlock at h
  split at h
  · cases h
    exact .inl rfl
  · split at h
    · cases h
    · split at h
      · split at h
        · cases h
        · next moveFaults =>
          cases h
          exact .inr (moveCells_error moveFaults)
      · cases h
        exact .inl rfl

theorem procCopy_error {a : Int} {s : State} {f : Fault} (h : procCopy a s = .error f) :
    f = .range ∨ f = .memoryIndex := by
  unfold procCopy at h
  split at h
  · exact copyBlock_error h
  · next noDescriptor =>
    cases h
    exact .inr (readDescriptor_error noDescriptor)

theorem procDivi_zero (s : State) : procDivi 0 s = .error .arithmetic := if_pos rfl

theorem procDivi_error {v : Int} {s : State} {f : Fault} (h : procDivi v s = .error f) : v = 0 := by
  unfold procDivi at h
  split at h
  · assumption
  · cases h

/-- Of the simplest forms only DIVI raises ArithmeticFault, and only for 0. -/
theorem baseProc_arithmetic {i : Instr} {v : Int} {s : State}
    (h : baseProc i v s = .error .arithmetic) : i = divForm (modeOf i) i.arg ∧ v = 0 := by
  cases i with
  | divi | div | divn => exact ⟨rfl, procDivi_error h⟩
  | sto | ston => cases procSto_error h
  | copy | cpyn => obtain other | other := procCopy_error h <;> cases other
  | _ => cases h

theorem procOf_divForm (m : Mode) (arg : Int) (s : State) :
    procOf (divForm m arg) s = byMode procDivi m arg s := by
  cases m <;> rfl

/-- Settles O35: each division is DIVI on its operand, and of all simplest forms only DIVI at 0 raises
this fault; reading an operand raises another one. -/
theorem zeroDivisorFaults : Obligations.ZeroDivisorFaults := by
  refine ⟨fun m arg s zero => ?_, fun i s t executes result => ?_⟩
  · have divides := (procOf_divForm m arg s).trans (byMode_of_operand_ok zero)
    exact exec_of_procOf_error (divides.trans (procDivi_zero s))
  · obtain ⟨raises, -⟩ := exec_faulted executes result
    obtain other | ⟨v, resolves, baseRaises⟩ := procOf_error raises
    · cases other
    · obtain ⟨division, rfl⟩ := baseProc_arithmetic baseRaises
      exact ⟨modeOf i, i.arg, division, resolves⟩

end Sys2Proof.Machine
end

section
/-! MemoryIndexFault (60_exceptions R174): data addresses given as arguments, and as pointers. -/

namespace Sys2Proof.Machine

/-- The instructions whose argument is a data address. -/
def addressForms : List (Int → Instr) :=
  [.lod, .lodn, .sto, .ston, .jump, .jmpz, .add, .addn, .sub, .subn,
    .mul, .muln, .div, .divn, .and, .cmpl, .cmpz, .copy, .cpyn]

/-- Those of them whose cell holds a data address again. -/
def pointerForms : List (Int → Instr) := [.lodn, .ston, .addn, .subn, .muln, .divn, .cpyn]

/-- STO and COPY use their argument as an address themselves; the others read an operand at it. -/
theorem addressForms_cases : ∀ form ∈ addressForms, form = .sto ∨ form = .copy ∨
    ∀ a, modeOf (form a) ≠ .immediate ∧ (form a).arg = a := by
  simp [addressForms, modeOf, Instr.arg]

/-- STON and CPYN use the pointer as STO and COPY do; the others read an operand at it. -/
theorem pointerForms_cases : ∀ form ∈ pointerForms, form = .ston ∨ form = .cpyn ∨
    ∀ a, modeOf (form a) = .indirect ∧ (form a).arg = a := by
  simp [pointerForms, modeOf, Instr.arg]

theorem operand_of_not_index {m : Mode} {a : Int} {s : State} (reads : m ≠ .immediate)
    (h : ¬ isDataIndex a) : operand m a s = .error .memoryIndex := by
  have faults := memRead_of_not_index (s := s) h
  cases m with
  | immediate => exact absurd rfl reads
  | direct => exact faults
  | indirect => simp only [operand, faults]

theorem operand_indirect_of_pointer_not_index {a p : Int} {s : State} (pointer : memRead a s = .ok p)
    (h : ¬ isDataIndex p) : operand .indirect a s = .error .memoryIndex := by
  simp only [operand, pointer, memRead_of_not_index h]

theorem exec_copy_of_not_descriptor {a : Int} (s : State) (h : ¬ (0 ≤ a ∧ a ≤ 509)) :
    exec (.copy a) s = .next (afterFault s .memoryIndex) :=
  (copyReadsItsDescriptor a s).2 h

theorem exec_of_address_not_index {form : Int → Instr} (listed : form ∈ addressForms) {a : Int}
    (s : State) (h : ¬ isDataIndex a) :
    exec (form a) s = .next (afterFault s .memoryIndex) := by
  obtain rfl | rfl | reads := addressForms_cases form listed
  · exact exec_of_procOf_error (i := .sto a) (procSto_of_not_index h)
  · exact exec_copy_of_not_descriptor s (by rw [isDataIndex_iff] at h; omega)
  · obtain ⟨notImmediate, argument⟩ := reads a
    exact exec_of_operand_error (operand_of_not_index notImmediate (argument.symm ▸ h))

theorem exec_of_pointer_not_index {form : Int → Instr} (listed : form ∈ pointerForms) {a p : Int}
    {s : State} (pointer : memRead a s = .ok p) (h : ¬ isDataIndex p) :
    exec (form a) s = .next (afterFault s .memoryIndex) := by
  obtain rfl | rfl | reads := pointerForms_cases form listed
  · have stores := procOf_eq_procSto (.inr ⟨a, rfl, pointer⟩)
    exact exec_of_procOf_error (stores.trans (procSto_of_not_index h))
  · rw [exec_cpyn_of_memRead_ok pointer]
    exact exec_copy_of_not_descriptor s (by rw [isDataIndex_iff] at h; omega)
  · obtain ⟨indirect, argument⟩ := reads a
    refine exec_of_operand_error ?_
    rw [indirect, argument]
    exact operand_indirect_of_pointer_not_index pointer h

/-- Settles O36: the fault of an address by where its form uses it, in an operand read, in STO's write
or in COPY's descriptor; the last clause is the primitives' own. -/
theorem dataAddressFaults : Obligations.DataAddressFaults := by
  refine ⟨fun form listed a s outOfRange => ?_, fun form listed a p s pointer outOfRange => ?_,
    fun a s atEnd => ?_, fun a v s outOfRange => ?_⟩
  · exact exec_of_address_not_index listed s (isDataIndex_iff.not.mpr outOfRange)
  · exact exec_of_pointer_not_index listed pointer (isDataIndex_iff.not.mpr outOfRange)
  · exact exec_copy_of_not_descriptor s (by omega)
  · have noCell := isDataIndex_iff.not.mpr outOfRange
    exact ⟨memRead_of_not_index noCell, memWrite_of_not_index noCell⟩

end Sys2Proof.Machine
end

section
/-! The boot sequence (70_reset R209): appends and data writes in any mix, from a clear engine. -/

namespace Sys2Proof.Machine

theorem hostCalls_cons_of_next {op : HostOp} {ops : List HostOp} {s t u : State} {reply : HostReply}
    {replies : List HostReply} (first : hostCall op s = .next (t, reply))
    (rest : hostCalls ops t = .next (u, replies)) :
    hostCalls (op :: ops) s = .next (u, reply :: replies) := by
  simp only [hostCalls, first, rest]

theorem hostCall_appendCode_of_room {s : State} (loading : s.lastResult = none)
    (room : s.codeSize < Config.codeCapacity) (w : CodeWord) :
    hostCall (.appendCode w) s = .next ({ s with code := s.code ++ [w] }, .done) := by
  simp [hostCall, appendCode, State.isLoading, loading, room]

theorem hostCall_setData_of_memWrite_ok {a : Int} {v : Word} {s t : State}
    (written : memWrite a (value v) s = .ok t) : hostCall (.setData a v) s = .next (t, .done) := by
  simp only [hostCall, setData, written]

/-- Boot operations from `s` ran to `t`, each done: the words they append follow the program, and a
cell holds the last value written to it, or else what it held. -/
structure LoadsTo (ops : List HostOp) (s t : State) (replies : List HostReply) : Prop where
  runs : hostCalls ops s = .next (t, replies)
  done : ∀ r ∈ replies, r = .done
  code : t.code = s.code ++ appendedWords ops
  pc : t.pc = s.pc
  acc : t.acc = s.acc
  data : ∀ (a : Int) (before : Word), memRead a s = .ok (value before) →
    memRead a t = .ok (value (lastData a before (dataWrites ops)))

theorem LoadsTo.nil (s : State) : LoadsTo [] s s [] where
  runs := rfl
  done := by simp
  code := (List.append_nil s.code).symm
  pc := rfl
  acc := rfl
  data := fun _ _ read => read

section
variable {ops : List HostOp} {s t : State} {replies : List HostReply}

theorem LoadsTo.appendCode_cons {w : CodeWord} (loading : s.lastResult = none)
    (room : s.codeSize < Config.codeCapacity)
    (rest : LoadsTo ops { s with code := s.code ++ [w] } t replies) :
    LoadsTo (.appendCode w :: ops) s t (.done :: replies) where
  runs := hostCalls_cons_of_next (hostCall_appendCode_of_room loading room w) rest.runs
  done := List.forall_mem_cons.mpr ⟨rfl, rest.done⟩
  code := rest.code.trans (List.append_assoc s.code [w] (appendedWords ops))
  pc := rest.pc
  acc := rest.acc
  data := rest.data

theorem LoadsTo.setData_cons {a : Int} {v : Word} {u : State}
    (written : memWrite a (value v) s = .ok u) (rest : LoadsTo ops u t replies) :
    LoadsTo (.setData a v :: ops) s t (.done :: replies) := by
  obtain ⟨-, rfl⟩ := memWrite_ok written
  refine ⟨hostCalls_cons_of_next (hostCall_setData_of_memWrite_ok written) rest.runs,
    List.forall_mem_cons.mpr ⟨rfl, rest.done⟩, rest.code, rest.pc, rest.acc,
    fun b before read => rest.data b _ ?_⟩
  rw [memRead_memWrite written, wrap32_value, read]
  by_cases same : a = b
  · rw [if_pos same.symm, if_pos same]
  · rw [if_neg (Ne.symm same), if_neg same]

end

/-- While there is room for the words they append, boot operations run in the loading phase. -/
theorem exists_loadsTo {ops : List HostOp} (boot : ∀ op ∈ ops, isLoadOp op) {s : State}
    (loading : s.lastResult = none)
    (room : s.codeSize + (appendedWords ops).length ≤ Config.codeCapacity) :
    ∃ t replies, LoadsTo ops s t replies := by
  induction ops generalizing s with
  | nil => exact ⟨s, [], .nil s⟩
  | cons op ops ih =>
    obtain ⟨bootOp, bootOps⟩ := List.forall_mem_cons.mp boot
    cases op with
    | appendCode w =>
      have roomAfter : s.codeSize + ((appendedWords ops).length + 1) ≤ Config.codeCapacity := room
      have sizeAfter : State.codeSize { s with code := s.code ++ [w] } = s.codeSize + 1 :=
        List.length_append
      obtain ⟨t, replies, rest⟩ := ih bootOps (s := { s with code := s.code ++ [w] }) loading (by omega)
      exact ⟨t, _, rest.appendCode_cons loading (by omega)⟩
    | setData a v =>
      have written := memWrite_of_index (v := value v) (s := s) (isDataIndex_iff.mpr bootOp)
      obtain ⟨t, replies, rest⟩ := ih bootOps
        (s := { s with mem := s.mem.write a.toNat (wrap32 (value v)), changed := a }) loading room
      exact ⟨t, _, rest.setData_cons written⟩
    | clear | step | getAccumulator | getProgramCounter | getData _ | getChangedIndex | isHalted
    | getCode => exact bootOp.elim

theorem memRead_reset {a : Int} (h : isDataIndex a) : memRead a State.reset = .ok (value 0) :=
  memRead_of_index h

/-- Settles O50: `clear()` leaves the reset state, from which the operations load, by induction on
them. -/
theorem bootSequenceLoadsTheProgram : Obligations.BootSequenceLoadsTheProgram := by
  intro s ops boot fits
  have room : State.reset.codeSize + (appendedWords ops).length ≤ Config.codeCapacity :=
    (Nat.zero_add _).trans_le fits
  obtain ⟨t, replies, loads⟩ := exists_loadsTo boot rfl room
  have cleared : hostCall .clear s = .next (State.reset, .done) := rfl
  refine ⟨t, .done :: replies, hostCalls_cons_of_next cleared loads.runs,
    List.forall_mem_cons.mpr ⟨rfl, loads.done⟩, loads.code, loads.pc, loads.acc,
    fun a nonneg inRange => loads.data a 0 (memRead_reset (isDataIndex_iff.mpr ⟨nonneg, inRange⟩))⟩

end Sys2Proof.Machine
end

section
/-! Encoding and decoding undo each other (30_encoding R50 to R52), and the decoder rejects by name (R57, R58). -/

namespace Sys2Proof

theorem zext32_sext32 (u : BitVec 32) : zext32 (sext32 u) = u := by
  rw [sext32_eq_toInt]
  exact BitVec.ofInt_toInt

theorem zext32_natCast_toNat (u : BitVec 32) : zext32 (u.toNat : Int) = u := by
  simp [zext32]

/-- A word is its two fields, packed. -/
theorem pack_opcodeField_argField (w : CodeWord) : pack (opcodeField w) (argField w) = w := by
  have halves : w.extractLsb' 32 32 ++ w.extractLsb' 0 32 = w.extractLsb' 0 64 :=
    BitVec.extractLsb'_append_extractLsb'_eq_extractLsb' rfl
  rw [pack, opcodeField, argField, zext32_natCast_toNat, zext32_sext32, halves,
    BitVec.extractLsb'_eq_self]

/-- An instruction's argument is that of its row, or 0 in the rows without one (R54). -/
theorem arg_of_row_argClass : ∀ row ∈ opcodeTable, ∀ a,
    (row.2.2.1 = .none → (row.2.2.2 a).arg = 0) ∧ (row.2.2.1 ≠ .none → (row.2.2.2 a).arg = a) := by
  simp [opcodeTable, Instr.arg]

/-- What the decoder answers stands in a row of the map with the word's opcode. -/
theorem exists_row_of_decode {w : CodeWord} {i : Instr} (h : decode w = .ok i) :
    ∃ row ∈ opcodeTable, row.1 = opcodeField w ∧ row.2.2.2 (argField w) = i := by
  obtain ⟨row, found, rfl⟩ := Option.map_eq_some_iff.mp (decode_eq_ok_iff.mp h)
  exact ⟨row, List.mem_of_find?_eq_some found, by simpa using List.find?_some found, rfl⟩

theorem exists_row_of_inOpcodeSet {op : Nat} (h : Machine.inOpcodeSet op) :
    ∃ row ∈ opcodeTable, row.1 = op := by
  have filled : ∀ k < 32, (k ≤ 0x1A ∨ k = 0x1D ∨ k = 0x1E ∨ k = 0x1F) →
      ∃ row ∈ opcodeTable, row.1 = k := by decide
  exact filled op (opcode_lt_of_inOpcodeSet h) h

/-- An opcode outside the set is rejected, by whether it is one of the two reserved ones. -/
theorem decode_of_not_inOpcodeSet {w : CodeWord} (h : ¬ Machine.inOpcodeSet (opcodeField w)) :
    decode w = if opcodeField w = 0x1B ∨ opcodeField w = 0x1C then .error .reservedOpcode
      else .error .undefinedOpcode := by
  have noRow : tableInstr (opcodeField w) (argField w) = none :=
    Option.eq_none_iff_forall_ne_some.mpr fun _ row => h (inOpcodeSet_of_tableInstr row)
  rw [decode, noRow]

theorem exists_decode_error {w : CodeWord} (h : ¬ Machine.inOpcodeSet (opcodeField w)) :
    ∃ e, decode w = .error e := by
  rw [decode_of_not_inOpcodeSet h]
  split
  · exact ⟨_, rfl⟩
  · exact ⟨_, rfl⟩

end Sys2Proof

namespace Sys2Proof.Machine

/-- Settles O2: the row of an instruction's own opcode gives it back, and both fields survive packing. -/
theorem decodeOfEncode : Obligations.DecodeOfEncode := fun i fits =>
  decode_pack (by have := opcode_lt i; omega) fits (tableInstr_opcode i)

/-- Settles O3: the word's row fixes the opcode, and the argument where it has one; then the encoder
packs the word's own fields. -/
theorem encodeOfDecode : Obligations.EncodeOfDecode := by
  intro w i decodes
  have fits := wellFormed_of_decode decodes
  obtain ⟨row, inTable, sameOpcode, rfl⟩ := exists_row_of_decode decodes
  obtain ⟨noArgument, argument⟩ := arg_of_row_argClass row inTable (argField w)
  have opcode : (row.2.2.2 (argField w)).opcode = opcodeField w :=
    (opcode_of_row row inTable _).trans sameOpcode
  rw [argClass_of_row inTable]
  refine ⟨fits, opcode, noArgument, fun hasArgument => ⟨argument hasArgument, ?_⟩⟩
  rw [encode, opcode, argument hasArgument, pack_opcodeField_argField]

/-- Settles O5: the opcode set is that of the rows, and a word outside it is rejected by name. -/
theorem decoderIsTotal : Obligations.DecoderIsTotal := by
  refine fun w => ⟨fun inSet => ?_, fun reserved => ?_, fun beyond => ?_⟩
  · obtain ⟨row, inTable, sameOpcode⟩ := exists_row_of_inOpcodeSet inSet
    refine ⟨row.2.2.2 (argField w), decode_eq_ok_iff.mpr ?_, ?_⟩
    · rw [← sameOpcode, tableInstr_of_row inTable]
    · rw [opcode_of_row row inTable, sameOpcode]
  · rw [decode_of_not_inOpcodeSet (by unfold inOpcodeSet; omega), if_pos reserved]
  · rw [decode_of_not_inOpcodeSet (by unfold inOpcodeSet; omega), if_neg (by omega)]

/-- Settles O6: the fields of each word are read off and its row looked up. -/
theorem writtenOutWordsDecode : Obligations.WrittenOutWordsDecode := by
  unfold Obligations.WrittenOutWordsDecode
  decide

theorem fetchInstr_of_decode_error {w : CodeWord} {e : DecodeError} {s : State}
    (word : codeRead (value s.pc) s = .ok w) (rejects : decode w = .error e) :
    fetchInstr s = .error .illegalOpcode := by
  simp only [fetchInstr, word, rejects]

/-- Settles O8: the word is fetched and the decoder rejects it, which the step turns into the fault. -/
theorem undefinedOpcodeFaults : Obligations.UndefinedOpcodeFaults := by
  intro s k w running atIndex populated outside
  have word : codeRead (value s.pc) s = .ok w := atIndex ▸ codeRead_of_getElem? populated
  obtain ⟨e, rejects⟩ := exists_decode_error outside
  exact step_of_fetchInstr_error running (fetchInstr_of_decode_error word rejects)

end Sys2Proof.Machine
end

section
/-! The engine's invariant (10_state R10, 40_step R83): every step keeps it. -/

namespace Sys2Proof.Machine

theorem procOf_mem_wf {i : Instr} {s t : State} (h : procOf i s = .ok t) (canonical : s.mem.wf) :
    t.mem.wf := by
  obtain accOnly | pcOnly | storeOnly | ⟨-, haltOnly⟩ := procOf_cases h
  · exact accOnly.mem ▸ canonical
  · exact pcOnly.mem ▸ canonical
  · exact storeOnly.mem_wf canonical
  · exact haltOnly.mem ▸ canonical

theorem procOf_changed_range {i : Instr} {s t : State} (h : procOf i s = .ok t)
    (inRange : -1 ≤ s.changed ∧ s.changed < Config.dataSize) :
    -1 ≤ t.changed ∧ t.changed < Config.dataSize := by
  obtain accOnly | pcOnly | storeOnly | ⟨-, haltOnly⟩ := procOf_cases h
  · exact accOnly.changed ▸ inRange
  · exact pcOnly.changed ▸ inRange
  · exact storeOnly.changed_range inRange
  · exact haltOnly.changed ▸ inRange

/-- The record that the end of a step writes goes with the halted bit (R83). -/
theorem halted_eq_haltedAfter_completed (s : State) :
    s.completed.halted = haltedAfter s.completed.lastResult := by
  rw [completed_halted, completed_lastResult]
  cases s.halted <;> rfl

theorem State.Inv.completed {s u : State} (inv : s.Inv) {i : Instr} (completes : procOf i s = .ok u) :
    u.completed.Inv where
  mem_wf := procOf_mem_wf (t := u) completes inv.mem_wf
  code_fits := (congrArg List.length (procOf_code completes)).trans_le inv.code_fits
  changed_range := procOf_changed_range (t := u) completes inv.changed_range
  halted_agrees := halted_eq_haltedAfter_completed u

theorem State.Inv.takeFault {s : State} (inv : s.Inv) (f : Fault) : (s.takeFault f).Inv where
  mem_wf := inv.mem_wf
  code_fits := inv.code_fits
  changed_range := inv.changed_range
  halted_agrees := rfl

theorem State.Inv.stayHalted {s : State} (inv : s.Inv) (halted : s.halted = true) :
    s.stayHalted.Inv where
  mem_wf := inv.mem_wf
  code_fits := inv.code_fits
  changed_range := inv.changed_range
  halted_agrees := halted

/-- Settles O14: a step stays halted, takes a fault or completes a procedure, and each keeps the
invariant. -/
theorem stepKeepsInvariant : Obligations.StepKeepsInvariant := by
  intro s t inv steps
  obtain ⟨halted, rfl⟩ | ⟨-, f, -, rfl⟩ | ⟨-, i, -, executes⟩ := step_cases steps
  · exact inv.stayHalted halted
  · exact inv.takeFault f
  · obtain ⟨u, completes, rfl⟩ | ⟨f, -, rfl⟩ := exec_cases executes
    · exact inv.completed completes
    · exact inv.takeFault f

/-- Settles O15: the reset state has an empty memory and store, `changed` at -1 and no result yet. -/
theorem resetMeetsInvariant : Obligations.ResetMeetsInvariant where
  mem_wf := ⟨List.Pairwise.nil, fun _ listed => nomatch listed⟩
  code_fits := Nat.zero_le _
  changed_range := by decide
  halted_agrees := rfl

end Sys2Proof.Machine
end

section
/-! The four results of a step (40_step R83), and the run that stops at the first that is not Running (R88). -/

namespace Sys2Proof.Machine

theorem step_answers_next (s : State) : ∃ t, step s = .next t := by
  unfold step
  split
  · exact ⟨_, rfl⟩
  · split
    · next i _ =>
      rw [exec_eq_attempt]
      exact attempt_answers_next s _
    · exact ⟨_, rfl⟩

theorem step_of_halted {s : State} (halted : s.halted = true) : step s = .next s.stayHalted :=
  if_pos halted

/-- Of the procedures only HALT's changes the halted bit. -/
theorem procOf_halted {i : Instr} {s t : State} (h : procOf i s = .ok t) :
    (i ≠ .halt ∧ t.halted = s.halted) ∨ (i = .halt ∧ t.halted = true) := by
  by_cases isHalt : i = .halt
  · subst isHalt
    cases h
    exact .inr ⟨rfl, rfl⟩
  · refine .inl ⟨isHalt, ?_⟩
    obtain accOnly | pcOnly | storeOnly | ⟨halts, -⟩ := procOf_cases h
    · exact accOnly.halted
    · exact pcOnly.halted
    · exact storeOnly.halted
    · exact absurd halts isHalt

/-- Settles O9: the halted bit is tested first. -/
theorem haltedEngineStaysAsItIs : Obligations.HaltedEngineStaysAsItIs := fun _ => step_of_halted

/-- Settles O10: the rows of the table are the ways a step can end, the middle two told apart by
whether the completed instruction is HALT. -/
theorem stepResultTable : Obligations.StepResultTable := by
  intro s
  obtain ⟨t, steps⟩ := step_answers_next s
  refine ⟨t, steps, ?_⟩
  obtain ⟨halted, rfl⟩ | ⟨running, f, -, rfl⟩ | ⟨running, i, fetched, executes⟩ := step_cases steps
  · exact .inl ⟨halted, rfl, halted⟩
  · exact .inr (.inr (.inr ⟨running, rfl, f, rfl⟩))
  · obtain ⟨u, completes, rfl⟩ | ⟨f, -, rfl⟩ := exec_cases executes
    · rw [completed_lastResult, completed_halted]
      obtain ⟨notHalt, kept⟩ | ⟨rfl, halts⟩ := procOf_halted completes
      · rw [running] at kept
        exact .inr (.inl ⟨running, by rw [kept]; rfl, kept, i, fetched, notHalt⟩)
      · exact .inr (.inr (.inl ⟨running, by rw [halts]; rfl, halts, fetched⟩))
    · exact .inr (.inr (.inr ⟨running, rfl, f, rfl⟩))

/-- Every result but Running leaves the engine halted. -/
theorem halted_of_step {s t : State} (steps : step s = .next t)
    (notRunning : t.lastResult ≠ some .running) : t.halted = true := by
  obtain ⟨u, stepsTo, table⟩ := stepResultTable s
  cases steps.symm.trans stepsTo
  obtain ⟨-, -, halted⟩ | ⟨-, result, -⟩ | ⟨-, -, halted, -⟩ | ⟨-, halted, -⟩ := table
  · exact halted
  · exact absurd result notRunning
  · exact halted
  · exact halted

/-- A run that ends was ended by a step whose result is not Running. -/
theorem exists_last_step_of_run {n : Nat} {s t : State} (ends : run n s = some t) :
    t.lastResult ≠ some .running ∧ ∃ u, step u = .next t := by
  induction n generalizing s with
  | zero => cases ends
  | succ n ih =>
    obtain ⟨u, steps⟩ := step_answers_next s
    simp only [run, steps] at ends
    split at ends
    · exact ih ends
    · next notRunning =>
      cases ends
      exact ⟨notRunning, s, steps⟩

/-- Settles O51: the last step of the run halted the engine, and a halted engine stays. -/
theorem finishedRunIsFinal : Obligations.FinishedRunIsFinal := by
  intro n s t ends
  obtain ⟨notRunning, u, steps⟩ := exists_last_step_of_run ends
  have halted := halted_of_step steps notRunning
  exact ⟨notRunning, halted, step_of_halted halted⟩

end Sys2Proof.Machine
end

section
/-! The host operations (70_reset R203): which answers they can give, and what each keeps. -/

namespace Sys2Proof.Machine

theorem appendCode_cases {w : CodeWord} {s t : State} {r : HostReply}
    (h : appendCode w s = .next (t, r)) :
    (s.codeSize < Config.codeCapacity ∧ t = { s with code := s.code ++ [w] } ∧ r = .done) ∨
      (t = s ∧ r = .loadError) := by
  unfold appendCode at h
  split at h
  · split at h
    · next room =>
      cases h
      exact .inl ⟨room, rfl, rfl⟩
    · cases h
      exact .inr ⟨rfl, rfl⟩
  · cases h

theorem setData_of_index {a : Int} (v : Word) (s : State) (h : isDataIndex a) :
    setData a v s = ({ s with mem := s.mem.write a.toNat v, changed := a }, .done) := by
  simp only [setData, memWrite_of_index h, wrap32_value]

theorem setData_of_not_index {a : Int} (v : Word) (s : State) (h : ¬ isDataIndex a) :
    setData a v s = (s, .memoryIndexError) := by
  simp only [setData, memWrite_of_not_index h]

theorem setData_halted (a : Int) (v : Word) (s : State) : (setData a v s).1.halted = s.halted := by
  by_cases index : isDataIndex a
  · rw [setData_of_index v s index]
  · rw [setData_of_not_index v s index]

/-- A host operation clears, appends, writes one cell, steps, or leaves the state as it is. -/
theorem hostCall_cases {op : HostOp} {s t : State} {r : HostReply} (h : hostCall op s = .next (t, r)) :
    (op = .clear ∧ t = State.reset) ∨
    (∃ w, op = .appendCode w ∧ appendCode w s = .next (t, r)) ∨
    (∃ a v, op = .setData a v ∧ t = (setData a v s).1) ∨
    (op = .step ∧ step s = .next t) ∨
    (op ≠ .clear ∧ t = s) := by
  cases op with
  | clear => cases h; exact .inl ⟨rfl, rfl⟩
  | appendCode w => exact .inr (.inl ⟨w, rfl, h⟩)
  | setData a v =>
    have state : setData a v s = (t, r) := Host.Outcome.next.inj h
    exact .inr (.inr (.inl ⟨a, v, rfl, by rw [state]⟩))
  | step =>
    obtain ⟨u, steps⟩ := step_answers_next s
    simp only [hostCall, steps] at h
    cases h
    exact .inr (.inr (.inr (.inl ⟨rfl, steps⟩)))
  | getAccumulator | getProgramCounter | getData _ | getChangedIndex | isHalted | getCode =>
    cases h
    exact .inr (.inr (.inr (.inr ⟨nofun, rfl⟩)))

theorem State.Inv.appendCode {w : CodeWord} {s t : State} {r : HostReply} (inv : s.Inv)
    (h : appendCode w s = .next (t, r)) : t.Inv := by
  obtain ⟨room, rfl, -⟩ | ⟨rfl, -⟩ := appendCode_cases h
  · have oneMore : (s.code ++ [w]).length ≤ Config.codeCapacity :=
      List.length_append.trans_le room
    exact ⟨inv.mem_wf, oneMore, inv.changed_range, inv.halted_agrees⟩
  · exact inv

theorem State.Inv.setData {s : State} (inv : s.Inv) (a : Int) (v : Word) : (setData a v s).1.Inv := by
  by_cases index : isDataIndex a
  · rw [setData_of_index v s index]
    obtain ⟨nonneg, below⟩ := index
    exact ⟨write_wf inv.mem_wf (by omega) v, inv.code_fits, ⟨Int.le_trans (by decide) nonneg, below⟩,
      inv.halted_agrees⟩
  · rw [setData_of_not_index v s index]
    exact inv

/-- Settles O16: by the kinds of host operations. -/
theorem hostCallsKeepInvariant : Obligations.HostCallsKeepInvariant := by
  intro op s t r inv answers
  obtain ⟨-, rfl⟩ | ⟨w, -, appends⟩ | ⟨a, v, -, rfl⟩ | ⟨-, steps⟩ | ⟨-, rfl⟩ := hostCall_cases answers
  · exact resetMeetsInvariant
  · exact inv.appendCode appends
  · exact inv.setData a v
  · exact stepKeepsInvariant s t inv steps
  · exact inv

/-- Settles O17: a halted engine stays halted in a step, and no other operation but `clear()` writes
the bit. -/
theorem haltedLeftOnlyByClear : Obligations.HaltedLeftOnlyByClear := by
  intro op s t r halted answers
  obtain ⟨rfl, rfl⟩ | ⟨w, rfl, appends⟩ | ⟨a, v, rfl, rfl⟩ | ⟨rfl, steps⟩ | ⟨notClear, rfl⟩ :=
    hostCall_cases answers
  · rfl
  · obtain ⟨-, rfl, -⟩ | ⟨rfl, -⟩ := appendCode_cases appends
    · exact halted
    · exact halted
  · exact (setData_halted a v s).trans halted
  · cases (step_of_halted halted).symm.trans steps
    exact halted
  · rw [halted, decide_eq_true notClear]

/-- Settles O46: `clear()` sets every field, no cell of either store is listed, and so the first fetch
finds nothing. -/
theorem resetValues : Obligations.ResetValues := by
  refine ⟨clear_eq_reset, rfl, rfl, fun a nonneg inRange => ?_, rfl, fun i => ?_, rfl, rfl, rfl, ?_⟩
  · exact memRead_reset (isDataIndex_iff.mpr ⟨nonneg, inRange⟩)
  · exact (codeReadRule i State.reset).2 (by have : State.reset.codeSize = 0 := rfl; omega)
  · exact (stepRunsTheFetchedInstruction State.reset rfl).2 (.inr (le_refl 0))

theorem hostCall_appendCode_of_full {s : State} (loading : s.lastResult = none)
    (full : Config.codeCapacity ≤ s.codeSize) (w : CodeWord) :
    hostCall (.appendCode w) s = .next (s, .loadError) := by
  simp [hostCall, appendCode, State.isLoading, loading, Nat.not_lt.mpr full]

theorem hostCall_appendCode_of_stepped {s : State} {r : StepResult} (stepped : s.lastResult = some r)
    (w : CodeWord) : hostCall (.appendCode w) s = .refused .appendAfterStep := by
  simp [hostCall, appendCode, State.isLoading, stepped]

/-- A step leaves a record of its result. -/
theorem exists_lastResult_of_step {s t : State} (steps : step s = .next t) :
    ∃ r, t.lastResult = some r := by
  obtain ⟨-, rfl⟩ | ⟨-, f, -, rfl⟩ | ⟨-, i, -, executes⟩ := step_cases steps
  · exact ⟨_, rfl⟩
  · exact ⟨_, rfl⟩
  · obtain ⟨u, -, rfl⟩ | ⟨f, -, rfl⟩ := exec_cases executes
    · exact ⟨_, rfl⟩
    · exact ⟨_, rfl⟩

/-- Settles O47: an append in the loading phase by the room left, and outside it refused. -/
theorem appendCodeRule : Obligations.AppendCodeRule := by
  refine fun w s => ⟨fun loading room => ?_, fun loading full => ?_, fun t u steps => ?_⟩
  · exact hostCall_appendCode_of_room loading room w
  · exact hostCall_appendCode_of_full loading full w
  · obtain ⟨r, stepped⟩ := exists_lastResult_of_step steps
    exact hostCall_appendCode_of_stepped stepped w

/-- The word written is the one read back. -/
theorem memRead_memWrite_same {a : Int} {v : Word} {s t : State}
    (written : memWrite a (value v) s = .ok t) : memRead a t = .ok (value v) := by
  rw [memRead_memWrite written, if_pos rfl, wrap32_value]

theorem getData_of_memRead_ok {a v : Int} {s : State} (read : memRead a s = .ok v) :
    getData a s = .number v := by
  simp only [getData, read]

/-- `getData` reports what `memRead` reads. -/
theorem getData_congr {a : Int} {s t : State} (h : memRead a s = memRead a t) :
    getData a s = getData a t := by
  simp only [getData, h]

/-- Settles O48: in range `setData` is the data write, whose reads are known; out of range neither
operation finds a cell. -/
theorem setDataGetDataRule : Obligations.SetDataGetDataRule := by
  refine fun a v s => ⟨fun inRange => ?_, fun outOfRange => ?_⟩
  · have index := isDataIndex_iff.mpr inRange
    have written := memWrite_of_index (v := value v) (s := s) index
    refine ⟨_, hostCall_setData_of_memWrite_ok written, rfl, ?_, fun b other => ?_⟩
    · rw [hostCall_getData, getData_of_memRead_ok (memRead_memWrite_same written)]
    · exact getData_congr (by rw [memRead_memWrite written, if_neg other])
  · have noCell := isDataIndex_iff.not.mpr outOfRange
    refine ⟨?_, ?_⟩
    · rw [hostCall, setData_of_not_index v s noCell]
    · rw [hostCall_getData, getData_of_not_index noCell]

end Sys2Proof.Machine
end

section
/-! Who writes the accumulator and the data cells (10_state R11, R16): by the simplest form of each instruction. -/

namespace Sys2Proof.Machine

/-- An instruction that completes resolved its operand and completed its simplest form. -/
theorem procOf_ok {i : Instr} {s t : State} (h : procOf i s = .ok t) :
    ∃ v, operand (modeOf i) i.arg s = .ok v ∧ baseProc i v s = .ok t := by
  rw [procOf_eq_byMode] at h
  cases resolves : operand (modeOf i) i.arg s with
  | ok v => exact ⟨v, rfl, (byMode_of_operand_ok resolves).symm.trans h⟩
  | error f =>
    rw [byMode_of_operand_error resolves] at h
    cases h

theorem baseProc_acc {i : Instr} {v : Int} {s t : State} (noWriter : ¬ writesAcc i)
    (h : baseProc i v s = .ok t) : t.acc = s.acc := by
  cases i with
  | nop => exact (nop_pcOnly h).acc
  | jmpi | jump => exact (jmpi_pcOnly h).acc
  | jmzi | jmpz => exact (jmzi_pcOnly h).acc
  | sto | ston => exact (sto_storeOnly h).acc
  | copy | cpyn => exact (copy_storeOnly h).acc
  | halt => cases h; rfl
  | _ => exact absurd trivial noWriter

/-- Settles O18: the simplest form of an instruction that is no writer keeps `acc`, and so does taking
a fault. -/
theorem accChangedOnlyByItsWriters : Obligations.AccChangedOnlyByItsWriters := by
  intro i s t noWriter executes
  obtain ⟨u, completes, rfl⟩ | ⟨f, -, rfl⟩ := exec_cases executes
  · obtain ⟨v, -, base⟩ := procOf_ok completes
    exact baseProc_acc (t := u) noWriter base
  · exact takeFault_acc s f

theorem AccOnly.data {s t : State} (h : AccOnly s t) : t.mem = s.mem ∧ t.changed = s.changed :=
  ⟨h.mem, h.changed⟩

theorem PcOnly.data {s t : State} (h : PcOnly s t) : t.mem = s.mem ∧ t.changed = s.changed :=
  ⟨h.mem, h.changed⟩

theorem baseProc_data {i : Instr} {v : Int} {s t : State} (noStore : ¬ storesData i)
    (h : baseProc i v s = .ok t) : t.mem = s.mem ∧ t.changed = s.changed := by
  cases i with
  | nop => exact (nop_pcOnly h).data
  | not => exact (not_accOnly h).data
  | halt => cases h; exact ⟨rfl, rfl⟩
  | lodi | lod | lodn => exact (lodi_accOnly h).data
  | addi | add | addn => exact (addi_accOnly h).data
  | subi | sub | subn => exact (subi_accOnly h).data
  | muli | mul | muln => exact (muli_accOnly h).data
  | divi | div | divn => exact (divi_accOnly h).data
  | andi | and => exact (andi_accOnly h).data
  | jmpi | jump => exact (jmpi_pcOnly h).data
  | jmzi | jmpz => exact (jmzi_pcOnly h).data
  | cmpl | cmpz => cases h; exact ⟨rfl, rfl⟩
  | sto | ston | copy | cpyn => exact absurd trivial noStore

/-- Settles O20: the simplest form of an instruction that does not store keeps memory and `changed`,
and so does taking a fault. -/
theorem dataChangedOnlyByStores : Obligations.DataChangedOnlyByStores := by
  intro i s t noStore executes
  obtain ⟨u, completes, rfl⟩ | ⟨f, -, rfl⟩ := exec_cases executes
  · obtain ⟨v, -, base⟩ := procOf_ok completes
    obtain ⟨mem, changed⟩ := baseProc_data noStore base
    exact ⟨fun a => memRead_congr mem, changed⟩
  · exact ⟨fun a => memRead_congr rfl, rfl⟩

end Sys2Proof.Machine
end

section
/-! What a step does not read (10_state R11, R16): two states that differ in it only are taken to two
states that differ in it only. -/

namespace Sys2Proof.Machine

/-- The same fault, or two states in the relation. -/
inductive SameOutcome (R : State → State → Prop) : Except Fault State → Except Fault State → Prop where
  | ok {t t' : State} (related : R t t') : SameOutcome R (.ok t) (.ok t')
  | error (f : Fault) : SameOutcome R (.error f) (.error f)

theorem SameOutcome.ok_or_error {R : State → State → Prop} {r r' : Except Fault State}
    (h : SameOutcome R r r') :
    (∃ t t', r = .ok t ∧ r' = .ok t' ∧ R t t') ∨ ∃ f, r = .error f ∧ r' = .error f := by
  cases h with
  | ok related => exact .inl ⟨_, _, rfl, rfl, related⟩
  | error f => exact .inr ⟨f, rfl, rfl⟩

/-- A relation of states that agree on the Data Memory and that the shared operations keep. -/
structure Simulation (R : State → State → Prop) : Prop where
  mem : ∀ {s s'}, R s s' → s.mem = s'.mem
  advance : ∀ {s s'}, R s s' → R s.advance s'.advance
  jumpTo : ∀ {s s'}, R s s' → ∀ v, R (s.jumpTo v) (s'.jumpTo v)
  halt : ∀ {s s'}, R s s' → R { s with halted := true, pc := s.pc + haltPcAdvance }
    { s' with halted := true, pc := s'.pc + haltPcAdvance }
  write : ∀ {s s'}, R s s' → ∀ (m : Memory) (a : Int),
    R { s with mem := m, changed := a } { s' with mem := m, changed := a }
  completed : ∀ {s s'}, R s s' → R s.completed s'.completed
  takeFault : ∀ {s s'}, R s s' → ∀ f, R (s.takeFault f) (s'.takeFault f)

section
variable {R : State → State → Prop} {s s' : State}

theorem Simulation.delegate (sim : Simulation R) (related : R s s')
    {p : Int → State → Except Fault State} (simpler : ∀ v, SameOutcome R (p v s) (p v s')) (a : Int) :
    SameOutcome R (delegate p a s) (delegate p a s') := by
  have sameRead : memRead a s = memRead a s' := memRead_congr (sim.mem related)
  cases read : memRead a s with
  | ok v =>
    rw [delegate_of_memRead_ok read, delegate_of_memRead_ok (sameRead.symm.trans read)]
    exact simpler v
  | error f =>
    rw [delegate_of_memRead_error read, delegate_of_memRead_error (sameRead.symm.trans read)]
    exact .error f

theorem Simulation.byMode (sim : Simulation R) (related : R s s')
    {p : Int → State → Except Fault State} (simplest : ∀ v, SameOutcome R (p v s) (p v s')) (m : Mode)
    (arg : Int) : SameOutcome R (byMode p m arg s) (byMode p m arg s') := by
  cases m with
  | immediate => exact simplest arg
  | direct => exact sim.delegate related simplest arg
  | indirect => exact sim.delegate related (sim.delegate related simplest) arg

theorem Simulation.memWrite (sim : Simulation R) (related : R s s') (a v : Int) :
    SameOutcome R (memWrite a v s) (memWrite a v s') := by
  by_cases index : isDataIndex a
  · rw [memWrite_of_index index, memWrite_of_index index, sim.mem related]
    exact .ok (sim.write related _ a)
  · rw [memWrite_of_not_index index, memWrite_of_not_index index]
    exact .error _

theorem Simulation.moveCells (sim : Simulation R) (source target : Int) (is : List Nat)
    (related : R s s') : SameOutcome R (moveCells source target is s) (moveCells source target is s') := by
  induction is generalizing s s' with
  | nil => exact .ok related
  | cons i is ih =>
    have sameRead : memRead (source + i) s = memRead (source + i) s' := memRead_congr (sim.mem related)
    rw [Machine.moveCells, Machine.moveCells, ← sameRead]
    cases memRead (source + i) s with
    | error f => exact .error f
    | ok v =>
      dsimp only
      obtain ⟨u, u', written, written', writes⟩ | ⟨f, faults, faults'⟩ :=
        (sim.memWrite related (target + i) v).ok_or_error
      · rw [written, written']
        exact ih writes
      · rw [faults, faults']
        exact .error f

theorem Simulation.copyBlock (sim : Simulation R) (related : R s s') (a source target length : Int) :
    SameOutcome R (copyBlock a source target length s) (copyBlock a source target length s') := by
  unfold Machine.copyBlock
  split
  · exact .error _
  · split
    · exact .ok (sim.advance related)
    · split
      · obtain ⟨u, u', moved, moved', moves⟩ | ⟨f, faults, faults'⟩ :=
          (sim.moveCells source target (moveOrder source target length.toNat) related).ok_or_error
        · rw [moved, moved']
          exact .ok (sim.advance moves)
        · rw [faults, faults']
          exact .error f
      · exact .error _

theorem readDescriptor_congr {a : Int} (h : s.mem = s'.mem) : readDescriptor a s = readDescriptor a s' := by
  simp only [readDescriptor, memRead_congr h]

theorem Simulation.copy (sim : Simulation R) (related : R s s') (a : Int) :
    SameOutcome R (procCopy a s) (procCopy a s') := by
  rw [procCopy, procCopy, readDescriptor_congr (sim.mem related)]
  cases readDescriptor a s' with
  | error f => exact .error f
  | ok descriptor => exact sim.copyBlock related a _ _ _

/-- Where the simplest form simulates, so does the instruction, whichever way it ends. -/
theorem Simulation.exec (sim : Simulation R) (related : R s s') {i : Instr} {t : State}
    (simplest : ∀ v, SameOutcome R (baseProc i v s) (baseProc i v s')) (executes : exec i s = .next t) :
    ∃ t', exec i s' = .next t' ∧ R t t' := by
  have outcome := sim.byMode related simplest (modeOf i) i.arg
  rw [← procOf_eq_byMode, ← procOf_eq_byMode] at outcome
  obtain ⟨u, u', completes, completes', kept⟩ | ⟨f, faults, faults'⟩ := outcome.ok_or_error
  · cases (exec_of_procOf_ok completes).symm.trans executes
    exact ⟨_, exec_of_procOf_ok completes', sim.completed kept⟩
  · cases (exec_of_procOf_error faults).symm.trans executes
    exact ⟨_, exec_of_procOf_error faults', sim.takeFault related f⟩

end

/-- The second state is the first with `w` in the accumulator. -/
def differsInAcc (w : Word) (s s' : State) : Prop := s' = { s with acc := w }

theorem simulation_differsInAcc (w : Word) : Simulation (differsInAcc w) where
  mem := by rintro s _ rfl; rfl
  advance := by rintro s _ rfl; rfl
  jumpTo := by rintro s _ rfl v; rfl
  halt := by rintro s _ rfl; rfl
  write := by rintro s _ rfl m a; rfl
  completed := by rintro s _ rfl; rfl
  takeFault := by rintro s _ rfl f; rfl

theorem baseProc_differsInAcc {i : Instr} {w : Word} {s s' : State} (ignores : ignoresAcc i)
    (related : differsInAcc w s s') (v : Int) :
    SameOutcome (differsInAcc w) (baseProc i v s) (baseProc i v s') := by
  have sim := simulation_differsInAcc w
  cases i with
  | nop => exact .ok (sim.advance related)
  | halt => exact .ok (sim.halt related)
  | jmpi | jump => exact .ok (sim.jumpTo related v)
  | copy | cpyn => exact sim.copy related v
  | _ => exact ignores.elim

/-- Settles O19: the simplest forms of the six simulate up to the accumulator. -/
theorem sixInstructionsIgnoreAcc : Obligations.SixInstructionsIgnoreAcc := by
  intro i s t w ignores executes
  obtain ⟨_, executes', rfl⟩ := (simulation_differsInAcc w).exec rfl
    (baseProc_differsInAcc ignores rfl) executes
  exact executes'

theorem simulation_agreeButChanged : Simulation agreeButChanged where
  mem := fun ⟨_, _, _, _, mem⟩ => mem
  advance := fun ⟨acc, pc, halted, code, mem⟩ => ⟨acc, congrArg (· + 1) pc, halted, code, mem⟩
  jumpTo := fun ⟨acc, _, halted, code, mem⟩ _ => ⟨acc, rfl, halted, code, mem⟩
  halt := fun ⟨acc, pc, _, code, mem⟩ => ⟨acc, congrArg (· + haltPcAdvance) pc, rfl, code, mem⟩
  write := fun ⟨acc, pc, halted, code, _⟩ _ _ => ⟨acc, pc, halted, code, rfl⟩
  completed := id
  takeFault := fun ⟨acc, pc, _, code, mem⟩ _ => ⟨acc, pc, rfl, code, mem⟩

/-- Writing the same value to both accumulators. -/
theorem setAcc_agreeButChanged {s s' : State} (agree : agreeButChanged s s') {v v' : Int} (h : v = v') :
    SameOutcome agreeButChanged (.ok (s.setAcc v).advance) (.ok (s'.setAcc v').advance) := by
  obtain ⟨-, pc, halted, code, mem⟩ := agree
  exact .ok ⟨congrArg wrap32 h, congrArg (· + 1) pc, halted, code, mem⟩

theorem procDivi_agreeButChanged {s s' : State} (agree : agreeButChanged s s') (v : Int) :
    SameOutcome agreeButChanged (procDivi v s) (procDivi v s') := by
  unfold procDivi
  split
  · exact .error _
  · exact setAcc_agreeButChanged agree (by rw [agree.1])

theorem procJmzi_agreeButChanged {s s' : State} (agree : agreeButChanged s s') (v : Int) :
    SameOutcome agreeButChanged (procJmzi v s) (procJmzi v s') := by
  unfold procJmzi State.accIsZero
  rw [agree.1]
  split
  · exact .ok (simulation_agreeButChanged.jumpTo agree v)
  · exact .ok (simulation_agreeButChanged.advance agree)

theorem procSto_agreeButChanged {s s' : State} (agree : agreeButChanged s s') (a : Int) :
    SameOutcome agreeButChanged (procSto a s) (procSto a s') := by
  unfold procSto
  rw [agree.1]
  obtain ⟨u, u', written, written', writes⟩ | ⟨f, faults, faults'⟩ :=
    (simulation_agreeButChanged.memWrite agree a (value s'.acc)).ok_or_error
  · rw [written, written']
    exact .ok (simulation_agreeButChanged.advance writes)
  · rw [faults, faults']
    exact .error f

theorem baseProc_agreeButChanged {s s' : State} (agree : agreeButChanged s s') (i : Instr) (v : Int) :
    SameOutcome agreeButChanged (baseProc i v s) (baseProc i v s') := by
  have sim := simulation_agreeButChanged
  have acc : value s.acc = value s'.acc := congrArg value agree.1
  cases i with
  | nop => exact .ok (sim.advance agree)
  | halt => exact .ok (sim.halt agree)
  | not => exact setAcc_agreeButChanged agree (by rw [acc])
  | lodi | lod | lodn | cmpl | cmpz => exact setAcc_agreeButChanged agree rfl
  | addi | add | addn | subi | sub | subn => exact setAcc_agreeButChanged agree (by rw [acc])
  | muli | mul | muln | andi | and => exact setAcc_agreeButChanged agree (by rw [acc])
  | divi | div | divn => exact procDivi_agreeButChanged agree v
  | jmpi | jump => exact .ok (sim.jumpTo agree v)
  | jmzi | jmpz => exact procJmzi_agreeButChanged agree v
  | sto | ston => exact procSto_agreeButChanged agree v
  | copy | cpyn => exact sim.copy agree v

/-- The fetch depends on the pc and the Code Store alone. -/
theorem fetchInstr_congr {s s' : State} (pc : s.pc = s'.pc) (code : s.code = s'.code) :
    fetchInstr s = fetchInstr s' := by
  simp only [fetchInstr, codeRead, pc, code]

/-- Settles O21: agreeing states fetch the same instruction, whose simplest form simulates. -/
theorem changedIndexIsNeverRead : Obligations.ChangedIndexIsNeverRead := by
  intro s s' t t' agree steps steps'
  have sim := simulation_agreeButChanged
  have ⟨_, pc, halted, code, _⟩ := agree
  have sameFetch := fetchInstr_congr pc code
  obtain ⟨stopped, rfl⟩ | ⟨running, f, faults, rfl⟩ | ⟨running, i, fetched, executes⟩ := step_cases steps
  · cases (step_of_halted (halted.symm.trans stopped)).symm.trans steps'
    exact agree
  · cases (step_of_fetchInstr_error (halted.symm.trans running) (sameFetch.symm.trans faults)).symm.trans
      steps'
    exact sim.takeFault agree f
  · obtain ⟨u, executes', related⟩ := sim.exec agree (baseProc_agreeButChanged agree i) executes
    have stepsTo := step_of_fetchInstr_ok (halted.symm.trans running) (sameFetch.symm.trans fetched)
    cases (stepsTo.trans executes').symm.trans steps'
    exact related

end Sys2Proof.Machine
end

section
/-! Canonical memories (log entry 6): the list is determined by the 512 cells. -/

namespace Sys2Proof.Machine

/-- In canonical form the first entry lies below all others. -/
theorem wf_cons {k : Nat} {u : Word} {m : Memory} (h : Memory.wf ((k, u) :: m)) :
    k < Config.dataSize ∧ u ≠ Memory.unlisted ∧ (∀ c ∈ m, k < c.1) ∧ m.wf := by
  obtain ⟨sorted, listed⟩ := h
  obtain ⟨below, sortedRest⟩ := List.pairwise_cons.mp sorted
  obtain ⟨⟨inside, nonzero⟩, listedRest⟩ := List.forall_mem_cons.mp listed
  exact ⟨inside, nonzero, below, sortedRest, listedRest⟩

theorem read_cons_same (k : Nat) (u : Word) (m : Memory) : Memory.read ((k, u) :: m) k = u :=
  if_pos rfl

theorem read_cons_ne {k a : Nat} (h : k ≠ a) (u : Word) (m : Memory) :
    Memory.read ((k, u) :: m) a = m.read a :=
  if_neg h

/-- Below its first entry a canonical memory has none. -/
theorem read_cons_of_lt {k a : Nat} {u : Word} {m : Memory} (h : Memory.wf ((k, u) :: m)) (lt : a < k) :
    Memory.read ((k, u) :: m) a = Memory.unlisted := by
  obtain ⟨-, -, below, -⟩ := wf_cons h
  exact read_of_below (List.forall_mem_cons.mpr ⟨lt, fun c listed => lt.trans (below c listed)⟩)

/-- Canonical memories that read alike do not begin at different indexes: the lower one would read as
unlisted in the other. -/
theorem first_index_le {k l : Nat} {u v : Word} {m n : Memory} (hm : Memory.wf ((k, u) :: m))
    (hn : Memory.wf ((l, v) :: n))
    (alike : ∀ a, a < Config.dataSize → Memory.read ((k, u) :: m) a = Memory.read ((l, v) :: n) a) :
    l ≤ k := by
  obtain ⟨inside, nonzero, -, -⟩ := wf_cons hm
  by_contra lower
  have cell := alike k inside
  rw [read_cons_same, read_cons_of_lt hn (Nat.lt_of_not_le lower)] at cell
  exact nonzero cell

theorem nil_of_reads_unlisted {m : Memory} (canonical : m.wf)
    (unlisted : ∀ a, a < Config.dataSize → m.read a = Memory.unlisted) : m = [] := by
  cases m with
  | nil => rfl
  | cons c m =>
    obtain ⟨inside, nonzero, -, -⟩ := wf_cons canonical
    exact absurd ((read_cons_same c.1 c.2 m).symm.trans (unlisted c.1 inside)) nonzero

/-- Equal memories from equal reads: the first entries have one index and one word, and behind them the
memories read alike again. -/
theorem eq_of_reads {m n : Memory} (hm : m.wf) (hn : n.wf)
    (alike : ∀ a, a < Config.dataSize → m.read a = n.read a) : m = n := by
  induction m generalizing n with
  | nil => exact (nil_of_reads_unlisted hn fun a inside => (alike a inside).symm).symm
  | cons c m ih =>
    cases n with
    | nil => exact nil_of_reads_unlisted hm alike
    | cons d n =>
      obtain ⟨k, u⟩ := c
      obtain ⟨l, v⟩ := d
      have sameIndex : k = l :=
        Nat.le_antisymm (first_index_le hn hm fun a inside => (alike a inside).symm)
          (first_index_le hm hn alike)
      subst sameIndex
      obtain ⟨inside, -, belowM, canonicalM⟩ := wf_cons hm
      obtain ⟨-, -, belowN, canonicalN⟩ := wf_cons hn
      have sameWord : u = v := by
        have cell := alike k inside
        rwa [read_cons_same, read_cons_same] at cell
      have alikeBehind : ∀ a, a < Config.dataSize → Memory.read m a = Memory.read n a := by
        intro a insideA
        by_cases first : k = a
        · subst first
          rw [read_of_below belowM, read_of_below belowN]
        · have cell := alike a insideA
          rwa [read_cons_ne first, read_cons_ne first] at cell
      rw [sameWord, ih canonicalM canonicalN alikeBehind]

/-- Settles O27, by induction on the first memory: its first entry is that of the second. -/
theorem canonicalMemoriesAreDetermined : Obligations.CanonicalMemoriesAreDetermined :=
  fun _ _ => eq_of_reads

end Sys2Proof.Machine
end

section
/-! The addressing modes (40_step R84) and the delegation chains (R85). -/

namespace Sys2Proof.Machine

theorem operand_indirect_of_memRead_ok {arg pointer : Int} {s : State}
    (read : memRead arg s = .ok pointer) : operand .indirect arg s = memRead pointer s := by
  simp only [operand, read]

/-- Settles O25: each mode is its reads, and a read is by whether its address is a data index. -/
theorem operandOfEachMode : Obligations.OperandOfEachMode := by
  refine fun arg s => ⟨rfl, fun inRange => ?_, fun outOfRange => ?_⟩
  · have read := memRead_of_index (s := s) (isDataIndex_iff.mpr inRange)
    refine ⟨read, fun p pointer => ⟨fun pInRange => ?_, fun pOutOfRange => ?_⟩⟩
    · rw [operand_indirect_of_memRead_ok read, ← pointer]
      exact memRead_of_index (isDataIndex_iff.mpr pInRange)
    · rw [operand_indirect_of_memRead_ok read, ← pointer]
      exact memRead_of_not_index (isDataIndex_iff.not.mpr pOutOfRange)
  · have noCell := isDataIndex_iff.not.mpr outOfRange
    exact ⟨operand_of_not_index (by decide) noCell, operand_of_not_index (by decide) noCell⟩

/-- The chains of 40_step section 2: a form and its simpler form. -/
def chainPairs : List ((Int → Instr) × (Int → Instr)) :=
  [(.lodn, .lod), (.lod, .lodi), (.ston, .sto), (.jump, .jmpi), (.jmpz, .jmzi),
    (.addn, .add), (.add, .addi), (.subn, .sub), (.sub, .subi), (.muln, .mul), (.mul, .muli),
    (.divn, .div), (.div, .divi), (.and, .andi), (.cpyn, .copy)]

theorem procOf_eq_delegate : ∀ chain ∈ chainPairs, ∀ (a : Int) (s : State),
    procOf (chain.1 a) s = delegate (fun v => procOf (chain.2 v)) a s := by
  simp only [chainPairs, List.forall_mem_cons]
  exact ⟨fun _ _ => rfl, fun _ _ => rfl, fun _ _ => rfl, fun _ _ => rfl, fun _ _ => rfl, fun _ _ => rfl,
    fun _ _ => rfl, fun _ _ => rfl, fun _ _ => rfl, fun _ _ => rfl, fun _ _ => rfl, fun _ _ => rfl,
    fun _ _ => rfl, fun _ _ => rfl, fun _ _ => rfl, fun _ listed => nomatch listed⟩

/-- Settles O26: the procedure of a form delegates to that of its simpler form. -/
theorem delegationChains : Obligations.DelegationChains := by
  intro form simpler listed a s
  have delegates := procOf_eq_delegate (form, simpler) listed a s
  refine ⟨fun v read => ?_, fun f faults => ?_⟩
  · exact exec_congr_procOf (delegates.trans (delegate_of_memRead_ok read))
  · exact exec_of_procOf_error (delegates.trans (delegate_of_memRead_error faults))

/-- R113: JMPZ is JMZI on the cell at its argument. -/
theorem exec_jmpz_of_memRead_ok {arg v : Int} {s : State} (read : memRead arg s = .ok v) :
    exec (.jmpz arg) s = exec (.jmzi v) s :=
  exec_congr_procOf (j := .jmzi v) (delegate_of_memRead_ok read)

/-- Settles O31: JMPZ reads before it tests, so it faults with the read, and otherwise does what JMZI
does. -/
theorem jmpzCompletes : Obligations.JmpzCompletes := by
  refine ⟨fun a => rfl, fun arg s running => ⟨fun v read => ⟨?_, ?_⟩, fun outOfRange => ?_⟩⟩
  · exact value_wrap32 (fits32_of_memRead_ok read)
  · rw [exec_jmpz_of_memRead_ok read, exec_jmzi running]
  · have delegates : procOf (.jmpz arg) s = delegate procJmzi arg s := rfl
    exact exec_of_delegate_not_index delegates (isDataIndex_iff.not.mpr outOfRange)

end Sys2Proof.Machine
end

section
/-! Arithmetic (43_arithmetic R120 to R132). -/

namespace Sys2Proof.Machine

/-- Settles O32: a word's value is its number, less 2^32 from 2^31 on, and the number of a wrapped
integer is its remainder. -/
theorem wrapIsReductionModulo : Obligations.WrapIsReductionModulo := by
  refine fun x => ⟨?_, value_wrap32⟩
  have signed : value (wrap32 x) = sext32 (zext32 x) := (sext32_eq_toInt _).symm
  have number : ((x % 4294967296).toNat : Int) = x % 4294967296 :=
    Int.toNat_of_nonneg (Int.emod_nonneg x (by decide))
  rw [signed, sext32, toNat_zext32_eq_emod, number]
  split
  · rw [if_pos (by omega)]
  · rw [if_neg (by omega)]

section
variable {m : Mode} {arg v : Int} {s : State} {i : Instr} {p : Int → State → Except Fault State}

/-- A form of a mode that writes `acc` from its operand. -/
theorem exec_byMode_setAcc (form : procOf i s = byMode p m arg s) (running : s.halted = false)
    (resolves : operand m arg s = .ok v) {result : Int} (writes : p v s = .ok (s.setAcc result).advance) :
    exec i s = .next (accWritten s result) :=
  exec_of_procOf_setAcc running (form.trans ((byMode_of_operand_ok resolves).trans writes))

/-- A form of a mode faults with its operand. -/
theorem exec_byMode_error (form : procOf i s = byMode p m arg s) {f : Fault}
    (faults : operand m arg s = .error f) : exec i s = .next (afterFault s f) :=
  exec_of_procOf_error (form.trans (byMode_of_operand_error faults))

end

theorem procOf_addForm (m : Mode) (arg : Int) (s : State) :
    procOf (addForm m arg) s = byMode procAddi m arg s := by
  cases m <;> rfl

theorem procOf_subForm (m : Mode) (arg : Int) (s : State) :
    procOf (subForm m arg) s = byMode procSubi m arg s := by
  cases m <;> rfl

theorem procOf_mulForm (m : Mode) (arg : Int) (s : State) :
    procOf (mulForm m arg) s = byMode procMuli m arg s := by
  cases m <;> rfl

/-- Settles O33: each of the nine is its immediate form on its operand. -/
theorem addSubMulComplete : Obligations.AddSubMulComplete := by
  refine fun m arg s running => ⟨fun v resolves => ⟨?_, ?_, ?_⟩, fun f faults => ⟨?_, ?_, ?_⟩⟩
  · exact exec_byMode_setAcc (procOf_addForm m arg s) running resolves rfl
  · exact exec_byMode_setAcc (procOf_subForm m arg s) running resolves rfl
  · exact exec_byMode_setAcc (procOf_mulForm m arg s) running resolves rfl
  · exact exec_byMode_error (procOf_addForm m arg s) faults
  · exact exec_byMode_error (procOf_subForm m arg s) faults
  · exact exec_byMode_error (procOf_mulForm m arg s) faults

theorem procDivi_of_ne_zero {v : Int} (nonzero : v ≠ 0) (s : State) :
    procDivi v s = .ok (s.setAcc (tdiv (value s.acc) v)).advance := if_neg nonzero

/-- The remainder of the division toward zero has the dividend's sign. -/
theorem tmod_mul_nonneg (a b : Int) : 0 ≤ a.tmod b * a := by
  obtain nonneg | neg := Int.le_total 0 a
  · exact Int.mul_nonneg (Int.tmod_nonneg b nonneg) nonneg
  · have nonpos : a.tmod b ≤ 0 := by
      have opposite := Int.tmod_nonneg b (Int.neg_nonneg_of_nonpos neg)
      rw [Int.neg_tmod] at opposite
      omega
    exact Int.mul_nonneg_of_nonpos_of_nonpos nonpos neg

/-- Settles O34: quotient and remainder are those of the division toward zero. -/
theorem divisionCompletes : Obligations.DivisionCompletes := by
  intro m arg v s running resolves nonzero
  refine ⟨tdiv (value s.acc) v, (value s.acc).tmod v, ?_, ?_, tmod_mul_nonneg _ _, ?_⟩
  · exact (Int.mul_tdiv_add_tmod _ _).symm
  · rw [Int.natAbs_tmod]
    exact Nat.mod_lt _ (Int.natAbs_pos.mpr nonzero)
  · exact exec_byMode_setAcc (procOf_divForm m arg s) running resolves (procDivi_of_ne_zero nonzero s)

end Sys2Proof.Machine
end

section
/-! HALT (46_nop_halt R161). -/

namespace Sys2Proof.Machine

theorem haltPcAdvance_cases : haltPcAdvance = 0 ∨ haltPcAdvance = 1 := by
  rw [← wrap32_value haltPcAdvance]
  exact value_haltPcAdvance.imp (congrArg wrap32) (congrArg wrap32)

theorem exec_halt (s : State) : exec .halt s =
    .next { s with halted := true, pc := s.pc + haltPcAdvance, lastResult := some .halted } := rfl

/-- Settles O40: HALT's procedure sets the bit, whatever it was, and so the next step stays halted. -/
theorem haltCompletes : Obligations.HaltCompletes := by
  refine ⟨by decide, decode_pack_of_row_ignores_arg (by decide) fun _ => rfl, haltPcAdvance_cases,
    fun s => ⟨exec_halt s, fun t executes => ?_⟩⟩
  cases (exec_halt s).symm.trans executes
  exact step_of_halted rfl

end Sys2Proof.Machine
end

section
/-! The block move (45_block_copy R150 to R156): which descriptors are legal, and that the order of the moves never reads a cell it has written. -/

namespace Sys2Proof.Machine

/-- The statements' form of legality, cell by cell, is the model's, by the ends of the range. -/
theorem blockIsLegal_iff {a start length : Int} (nonempty : 1 ≤ length) :
    blockIsLegal a start length ↔ rangeIsLegal a start length := by
  have size : (Config.dataSize : Int) = 512 := rfl
  unfold blockIsLegal
  refine ⟨fun legal => ?_, fun legal x => ?_⟩
  · have first := legal start
    have last := legal (start + length - 1)
    have descriptor := legal a
    have descriptor₁ := legal (a + 1)
    have descriptor₂ := legal (a + 2)
    omega
  · omega

theorem mem_moveOrder {source target : Int} {n i : Nat} : i ∈ moveOrder source target n ↔ i < n := by
  unfold moveOrder
  split
  · rw [List.mem_reverse, List.mem_range]
  · exact List.mem_range

/-- Moving downward where the target lies above the source, and upward elsewhere, no cell is read after
it was written (R155). -/
theorem moveOrder_pairwise (source target : Int) (n : Nat) :
    (moveOrder source target n).Pairwise
      fun (j i : Nat) => j ≠ i ∧ target + (j : Int) ≠ source + (i : Int) := by
  unfold moveOrder
  split
  · exact List.pairwise_reverse.mpr (List.pairwise_lt_range.imp (by omega))
  · exact List.pairwise_lt_range.imp (by omega)

/-- The last cell moved is the first of the block going down, the last of it going up. -/
theorem getLast?_moveOrder (source target : Int) (n : Nat) :
    (moveOrder source target (n + 1)).getLast? = some (if source < target then 0 else n) := by
  unfold moveOrder
  split
  · rw [List.getLast?_reverse, List.head?_range, if_neg n.succ_ne_zero]
  · rw [List.range_succ, List.getLast?_concat]

/-- COPY at `a` and CPYN through a cell that holds `a` run one procedure (R157). -/
theorem procOf_eq_copyBlock {i : Instr} {a source target length : Int} {s : State}
    (copies : copiesFrom i a s) (descriptor : descriptorAt a source target length s) :
    procOf i s = copyBlock a source target length s := by
  have copy : procCopy a s = copyBlock a source target length s := by
    simp only [procCopy, readDescriptor_of_descriptorAt descriptor]
  obtain rfl | ⟨p, rfl, pointer⟩ := copies
  · exact copy
  · exact (delegate_of_memRead_ok pointer).trans copy

theorem copyBlock_of_neg {length : Int} (negative : length < 0) (a source target : Int) (s : State) :
    copyBlock a source target length s = .error .range := if_pos negative

theorem copyBlock_zero (a source target : Int) (s : State) :
    copyBlock a source target 0 s = .ok s.advance := rfl

section
variable {a source target length : Int} (nonempty : 1 ≤ length)
include nonempty

theorem copyBlock_of_illegal
    (illegal : ¬ (blockIsLegal a source length ∧ blockIsLegal a target length)) (s : State) :
    copyBlock a source target length s = .error .range := by
  rw [blockIsLegal_iff nonempty, blockIsLegal_iff nonempty] at illegal
  rw [copyBlock, if_neg (by omega), if_neg (by omega), if_neg illegal]

theorem copyBlock_of_moveCells_ok {s t : State} (legalSource : blockIsLegal a source length)
    (legalTarget : blockIsLegal a target length)
    (moves : moveCells source target (moveOrder source target length.toNat) s = .ok t) :
    copyBlock a source target length s = .ok t.advance := by
  rw [blockIsLegal_iff nonempty] at legalSource legalTarget
  rw [copyBlock, if_neg (by omega), if_neg (by omega), if_pos ⟨legalSource, legalTarget⟩, moves]

/-- A legal block moves as if through a buffer. -/
theorem exists_moved_block (s : State) (legalSource : blockIsLegal a source length)
    (legalTarget : blockIsLegal a target length) :
    ∃ t, moveCells source target (moveOrder source target length.toNat) s = .ok t ∧
      (∀ k, 0 ≤ k → k < length → memRead (target + k) t = memRead (source + k) s) ∧
      (∀ b, ¬ (target ≤ b ∧ b < target + length) → memRead b t = memRead b s) ∧
      t.changed = if source < target then target else target + length - 1 := by
  obtain ⟨n, rfl⟩ : ∃ n : Nat, length = ((n + 1 : Nat) : Int) := ⟨(length - 1).toNat, by omega⟩
  rw [Int.toNat_natCast]
  have inside : ∀ i ∈ moveOrder source target (n + 1),
      isDataIndex (source + i) ∧ isDataIndex (target + i) := by
    intro i listed
    have below := mem_moveOrder.mp listed
    have cellSource := legalSource (source + i) (by omega) (by omega)
    have cellTarget := legalTarget (target + i) (by omega) (by omega)
    rw [isDataIndex_iff, isDataIndex_iff]
    omega
  obtain ⟨t, moves, moved, kept, changed⟩ :=
    moveCells_reads s inside (moveOrder_pairwise source target (n + 1))
  refine ⟨t, moves, fun k nonneg below => ?_, fun b outside => ?_, ?_⟩
  · obtain ⟨i, rfl⟩ := Int.eq_ofNat_of_zero_le nonneg
    exact moved i (mem_moveOrder.mpr (by omega))
  · refine kept b fun i listed => ?_
    have below := mem_moveOrder.mp listed
    omega
  · rw [changed, getLast?_moveOrder, Option.map_some, Option.getD_some]
    split
    · exact Int.add_zero target
    · omega

end

/-- Settles O42: a legal block is moved as through a buffer, by cells the order of the moves reads
before it writes them; the moves change nothing but memory and `changed`. -/
theorem copyMovesTheBlock : Obligations.CopyMovesTheBlock := by
  intro i a source target length s running copies descriptor nonempty legalSource legalTarget
  obtain ⟨t, moves, moved, kept, changed⟩ := exists_moved_block nonempty s legalSource legalTarget
  have copied := (procOf_eq_copyBlock copies descriptor).trans
    (copyBlock_of_moveCells_ok nonempty legalSource legalTarget moves)
  obtain ⟨acc, pc, halted, code, -⟩ := moveCells_frame moves
  refine ⟨t.advance.completed, exec_of_procOf_ok copied, moved, kept, ?_⟩
  rw [completed_advance (halted.trans running), ← changed]
  simp only [pcWritten, acc, pc, halted, code]

/-- Settles O43: the length is tested first, then the two blocks. -/
theorem illegalCopyFaults : Obligations.IllegalCopyFaults := by
  intro i a source target length s copies descriptor illegal
  refine exec_of_procOf_error ((procOf_eq_copyBlock copies descriptor).trans ?_)
  obtain negative | ⟨nonempty, illegal⟩ := illegal
  · exact copyBlock_of_neg negative a source target s
  · exact copyBlock_of_illegal nonempty illegal s

/-- Settles O44: length 0 is answered before source and target are looked at. -/
theorem emptyCopyOnlyAdvances : Obligations.EmptyCopyOnlyAdvances := by
  intro i a source target s running copies descriptor
  have advances := (procOf_eq_copyBlock copies descriptor).trans (copyBlock_zero a source target s)
  rw [exec_of_procOf_ok advances, completed_advance running]

end Sys2Proof.Machine
end

section
/-! Tokens (30_encoding R62, R64): a line of tokens is read back as its tokens, and a 32-bit value's token as the value. -/

namespace Sys2Proof.Machine

/-- A token: it is not empty and holds no white space. -/
structure IsToken (t : List Char) : Prop where
  nonempty : t ≠ []
  noBlank : ∀ c ∈ t, isBlank c = false

theorem tokensFrom_append {t : List Char} (noBlank : ∀ c ∈ t, isBlank c = false) (rest cur : List Char) :
    tokensFrom (t ++ rest) cur = tokensFrom rest (t.reverse ++ cur) := by
  induction t generalizing cur with
  | nil => rfl
  | cons c cs ih =>
    obtain ⟨notBlank, noBlankRest⟩ := List.forall_mem_cons.mp noBlank
    rw [List.cons_append, tokensFrom, if_neg (by simp [notBlank]), ih noBlankRest, List.reverse_cons,
      List.append_assoc, List.singleton_append]

theorem tokens_token {t : List Char} (token : IsToken t) : tokens t = [t] := by
  have whole := tokensFrom_append token.noBlank [] []
  rw [List.append_nil, List.append_nil] at whole
  rw [tokens, whole, tokensFrom, if_neg (by simpa using token.nonempty), List.reverse_reverse]

theorem tokens_token_blank {t : List Char} (token : IsToken t) (rest : Line) :
    tokens (t ++ ' ' :: rest) = t :: tokens rest := by
  have blank : isBlank ' ' = true := by decide
  rw [tokens, tokensFrom_append token.noBlank, List.append_nil, tokensFrom, if_pos blank,
    if_neg (by simpa using token.nonempty), List.reverse_reverse, tokens]

theorem hexDigit_digitChar : ∀ d < 16, hexDigit (digitChar d) = some d := by decide

theorem digitChar_plain : ∀ d < 16, digitChar d ≠ '-' ∧ isBlank (digitChar d) = false := by decide

theorem mem_hexText {most n : Nat} {c : Char} (h : c ∈ hexText most n) : ∃ d < 16, c = digitChar d := by
  induction most generalizing n with
  | zero => cases h
  | succ most ih =>
    rw [hexText] at h
    split at h
    · next digit => exact ⟨n, digit, List.mem_singleton.mp h⟩
    · obtain higher | lowest := List.mem_append.mp h
      · exact ih higher
      · exact ⟨n % 16, Nat.mod_lt n (by decide), List.mem_singleton.mp lowest⟩

theorem hexText_ne_nil (most n : Nat) : hexText (most + 1) n ≠ [] := by
  rw [hexText]
  split
  · exact List.cons_ne_nil _ _
  · exact List.append_ne_nil_of_right_ne_nil _ (List.cons_ne_nil _ _)

theorem hexDigits_append (cs ds : List Char) (n : Nat) :
    hexDigits (cs ++ ds) n = (hexDigits cs n).bind (hexDigits ds) := by
  induction cs generalizing n with
  | nil => rfl
  | cons c cs ih =>
    simp only [List.cons_append, hexDigits]
    split
    · exact ih _
    · rfl

theorem hexDigits_digitChar {d : Nat} (digit : d < 16) (n : Nat) :
    hexDigits [digitChar d] n = some (16 * n + d) := by
  simp only [hexDigits, hexDigit_digitChar d digit]

/-- The digits of a number are read back as the number. -/
theorem hexDigits_hexText {most n : Nat} (fits : n < 16 ^ most) :
    hexDigits (hexText most n) 0 = some n := by
  induction most generalizing n with
  | zero => rw [hexText, hexDigits, Nat.lt_one_iff.mp fits]
  | succ most ih =>
    rw [hexText]
    split
    · next digit => rw [hexDigits_digitChar digit, Nat.mul_zero, Nat.zero_add]
    · have higher : n / 16 < 16 ^ most := by
        rw [Nat.pow_succ] at fits
        omega
      rw [hexDigits_append, ih higher, Option.bind_some, hexDigits_digitChar (Nat.mod_lt n (by decide)),
        Nat.div_add_mod]

theorem hexToken_of_digits {ds : List Char} {n : Nat} (nonempty : ds ≠ []) (unsigned : '-' ∉ ds)
    (digits : hexDigits ds 0 = some n) : hexToken ds = inTokenRange n := by
  unfold hexToken
  split
  · exact absurd rfl nonempty
  · exact absurd List.mem_cons_self unsigned
  · exact absurd List.mem_cons_self unsigned
  · rw [digits]

theorem hexToken_of_neg_digits {ds : List Char} {n : Nat} (nonempty : ds ≠ [])
    (digits : hexDigits ds 0 = some n) : hexToken ('-' :: ds) = inTokenRange (-(n : Int)) := by
  cases ds with
  | nil => exact absurd rfl nonempty
  | cons c cs => simp only [hexToken, digits]

theorem unsigned_hexText (most n : Nat) : '-' ∉ hexText most n := by
  intro listed
  obtain ⟨d, digit, same⟩ := mem_hexText listed
  exact (digitChar_plain d digit).1 same.symm

/-- The token of a 32-bit value is read back as the value. -/
theorem hexToken_tokenText {v : Int} (fits : fits32 v) : hexToken (tokenText v) = some v := by
  have inRange : inTokenRange v = some v := if_pos fits
  unfold tokenText
  split
  · rw [hexToken_of_neg_digits (hexText_ne_nil 7 _) (hexDigits_hexText (by omega)), ← inRange]
    congr 1
    omega
  · rw [hexToken_of_digits (hexText_ne_nil 7 _) (unsigned_hexText 8 _) (hexDigits_hexText (by omega)),
      ← inRange]
    congr 1
    omega

theorem noBlank_hexText (most n : Nat) : ∀ c ∈ hexText most n, isBlank c = false := by
  intro c listed
  obtain ⟨d, digit, rfl⟩ := mem_hexText listed
  exact (digitChar_plain d digit).2

theorem isToken_tokenText (v : Int) : IsToken (tokenText v) := by
  unfold tokenText
  split
  · exact ⟨List.cons_ne_nil _ _, List.forall_mem_cons.mpr ⟨by decide, noBlank_hexText 8 _⟩⟩
  · exact ⟨hexText_ne_nil 7 _, noBlank_hexText 8 _⟩

theorem tokens_pairLine (p : Int × Int) : tokens (pairLine p) = [tokenText p.1, tokenText p.2] := by
  rw [pairLine, tokens_token_blank (isToken_tokenText p.1), tokens_token (isToken_tokenText p.2)]

theorem hexTokens_pairLine {p : Int × Int} (fits : fits32 p.1 ∧ fits32 p.2) :
    hexTokens (tokens (pairLine p)) = some [p.1, p.2] := by
  simp only [tokens_pairLine, hexTokens, hexToken_tokenText fits.1, hexToken_tokenText fits.2]

end Sys2Proof.Machine
end

section
/-! Loading an image (30_encoding R68, R69, 70_reset R204): line by line it is the host operations of its lines. -/

namespace Sys2Proof.Machine

/-- A code line is its append. -/
theorem loadFrom_code_line {p : Int × Int} (fits : fits32 p.1 ∧ fits32 p.2) (noSentinel : p.1 ≠ -1)
    {s t : State} (appends : hostCall (.appendCode (pack p.1 p.2)) s = .next (t, .done))
    (rest : List Line) (n : Nat) :
    loadFrom (pairLine p :: rest) n false s = loadFrom rest (n + 1) false t := by
  have appended : appendCode (pack p.1 p.2) s = .next (t, .done) := appends
  simp [loadFrom, hexTokens_pairLine fits, noSentinel, appended]

theorem loadFrom_sentinel (rest : List Line) (n : Nat) (s : State) :
    loadFrom (sentinel :: rest) n false s = loadFrom rest (n + 1) true s := by
  have tokenized : hexTokens (tokens sentinel) = some [-1] := by decide
  simp [loadFrom, tokenized]

/-- A data line is its data write. -/
theorem loadFrom_data_line {p : Int × Int} (fits : fits32 p.1 ∧ fits32 p.2) {s t : State}
    (writes : hostCall (.setData p.1 (wrap32 p.2)) s = .next (t, .done)) (rest : List Line) (n : Nat) :
    loadFrom (pairLine p :: rest) n true s = loadFrom rest (n + 1) true t := by
  have written : setData p.1 (wrap32 p.2) s = (t, .done) := Host.Outcome.next.inj writes
  simp [loadFrom, hexTokens_pairLine fits, written]

/-- Loading lines from `s` succeeds and leaves the state that host operations leave, with the code
`code`. -/
def LoadsAs (lines : List Line) (n : Nat) (dataPhase : Bool) (ops : List HostOp) (s : State)
    (code : List CodeWord) : Prop :=
  ∃ t replies, loadFrom lines n dataPhase s = .next (t, .loaded) ∧
    hostCalls ops s = .next (t, replies) ∧ t.code = code

/-- One more line and one more operation, from the state the operation leaves. -/
theorem LoadsAs.cons {line : Line} {lines : List Line} {n : Nat} {dataPhase : Bool} {op : HostOp}
    {ops : List HostOp} {s t : State} {code : List CodeWord} {reply : HostReply}
    (first : hostCall op s = .next (t, reply))
    (loads : loadFrom (line :: lines) n dataPhase s = loadFrom lines (n + 1) dataPhase t)
    (rest : LoadsAs lines (n + 1) dataPhase ops t code) :
    LoadsAs (line :: lines) n dataPhase (op :: ops) s code := by
  obtain ⟨u, replies, loaded, runs, sameCode⟩ := rest
  exact ⟨u, reply :: replies, loads.trans loaded, hostCalls_cons_of_next first runs, sameCode⟩

theorem loadsAs_data_lines {data : List (Int × Int)}
    (inRange : ∀ p ∈ data, (0 ≤ p.1 ∧ p.1 ≤ 511) ∧ fits32 p.2) (n : Nat) (s : State) :
    LoadsAs (data.map pairLine) n true (data.map fun p => .setData p.1 (wrap32 p.2)) s s.code := by
  induction data generalizing n s with
  | nil => exact ⟨s, [], rfl, rfl, rfl⟩
  | cons p data ih =>
    obtain ⟨⟨index, fits⟩, inRangeRest⟩ := List.forall_mem_cons.mp inRange
    have writes := hostCall_setData_of_memWrite_ok
      (memWrite_of_index (v := value (wrap32 p.2)) (s := s) (isDataIndex_iff.mpr index))
    exact .cons writes (loadFrom_data_line ⟨by omega, fits⟩ writes _ n) (ih inRangeRest (n + 1) _)

theorem loadsAs_program {program : List Instr} {data : List (Int × Int)}
    (wellFormed : ∀ i ∈ program, i.wellFormed)
    (inRange : ∀ p ∈ data, (0 ≤ p.1 ∧ p.1 ≤ 511) ∧ fits32 p.2) (n : Nat) {s : State}
    (loading : s.lastResult = none) (room : s.codeSize + program.length ≤ Config.codeCapacity) :
    LoadsAs (Image.text ⟨program.map imageLine, data⟩) n false
      ((program.map fun i => .appendCode (pack i.opcode i.arg)) ++
        data.map fun p => .setData p.1 (wrap32 p.2)) s (s.code ++ program.map encode) := by
  induction program generalizing n s with
  | nil =>
    obtain ⟨t, replies, loaded, runs, sameCode⟩ := loadsAs_data_lines inRange (n + 1) s
    exact ⟨t, replies, (loadFrom_sentinel _ n s).trans loaded, runs, sameCode.trans (by simp)⟩
  | cons i program ih =>
    obtain ⟨fits, wellFormedRest⟩ := List.forall_mem_cons.mp wellFormed
    have small := opcode_lt i
    rw [List.length_cons] at room
    have appends := hostCall_appendCode_of_room loading (by omega) (encode i)
    have sizeAfter : State.codeSize { s with code := s.code ++ [encode i] } = s.codeSize + 1 :=
      List.length_append
    have rest := ih wellFormedRest (n + 1) (s := { s with code := s.code ++ [encode i] }) loading
      (by omega)
    rw [List.append_assoc] at rest
    have line := loadFrom_code_line (p := imageLine i) ⟨by simp only [imageLine]; omega, fits⟩
      (by simp only [imageLine]; omega) appends
    exact .cons appends (line _ n) rest

/-- Settles O52, by induction on the program, and after the sentinel on the data lines. -/
theorem loadingAnImage : Obligations.LoadingAnImage := by
  intro program data fits wellFormed inRange
  exact loadsAs_program wellFormed inRange 1 (s := State.reset) rfl ((Nat.zero_add _).trans_le fits)

end Sys2Proof.Machine
end

section
/-! Assembling a source text (30_encoding R62 to R66): every line of it is read back as what it was written from. -/

namespace Sys2Proof

/-- Every instruction stands in a row of the opcode map, at its argument. -/
theorem exists_row (i : Instr) : ∃ row ∈ opcodeTable, row.2.2.2 i.arg = i := by
  obtain ⟨row, found, same⟩ := Option.map_eq_some_iff.mp (tableInstr_opcode i)
  exact ⟨row, List.mem_of_find?_eq_some found, same⟩

/-- No mnemonic of the map has two rows. -/
theorem find_mnemonic {row : Nat × List Char × ArgClass × (Int → Instr)} (h : row ∈ opcodeTable) :
    (opcodeTable.find? fun r => r.2.1 == row.2.1) = some row := by
  have distinct : (opcodeTable.map fun r => r.2.1).Nodup := by decide
  obtain ⟨found, finds⟩ := Option.isSome_iff_exists.mp
    (List.find?_isSome (p := fun r => r.2.1 == row.2.1).mpr ⟨row, h, beq_self_eq_true row.2.1⟩)
  have same : found.2.1 = row.2.1 := by simpa using List.find?_some finds
  rw [finds, List.inj_on_of_nodup_map distinct (List.mem_of_find?_eq_some finds) h same]

end Sys2Proof

namespace Sys2Proof.Machine

theorem isToken_mnemonic_of_row : ∀ row ∈ opcodeTable, row.2.1 ≠ [] ∧ ∀ c ∈ row.2.1, isBlank c = false := by
  simp [opcodeTable, isBlank]

theorem mnemonic_ne_endcode_of_row : ∀ row ∈ opcodeTable, row.2.1 ≠ endcode := by decide

theorem isToken_mnemonic (i : Instr) : IsToken i.mnemonic := by
  obtain ⟨row, inTable, same⟩ := exists_row i
  obtain ⟨nonempty, noBlank⟩ := isToken_mnemonic_of_row row inTable
  rw [← same, mnemonic_of_row inTable]
  exact ⟨nonempty, noBlank⟩

/-- The line is one token, or a token and more after a blank. -/
def BeginsWithToken (l : Line) : Prop := ∃ t rest, IsToken t ∧ (l = t ∨ l = t ++ ' ' :: rest)

theorem BeginsWithToken.tokens_ne_nil {l : Line} (begins : BeginsWithToken l) : tokens l ≠ [] := by
  obtain ⟨t, rest, token, rfl | rfl⟩ := begins
  · rw [tokens_token token]
    exact List.cons_ne_nil _ _
  · rw [tokens_token_blank token]
    exact List.cons_ne_nil _ _

theorem IsToken.head?_append {t : List Char} (token : IsToken t) (rest : Line) :
    (t ++ rest).head?.map isBlank = some false := by
  obtain ⟨nonempty, noBlank⟩ := token
  cases t with
  | nil => exact absurd rfl nonempty
  | cons c cs => exact congrArg some (noBlank c List.mem_cons_self)

theorem BeginsWithToken.no_leading_blank {l : Line} (begins : BeginsWithToken l) :
    l.head?.map isBlank ≠ some true := by
  obtain ⟨t, rest, token, rfl | rfl⟩ := begins
  · have first := token.head?_append []
    rw [List.append_nil] at first
    rw [first]
    decide
  · rw [token.head?_append]
    decide

theorem beginsWithToken_pairLine (p : Int × Int) : BeginsWithToken (pairLine p) :=
  ⟨tokenText p.1, tokenText p.2, isToken_tokenText p.1, .inr rfl⟩

theorem beginsWithToken_instrText (i : Instr) : BeginsWithToken (instrText i) := by
  refine ⟨i.mnemonic, tokenText i.arg, isToken_mnemonic i, ?_⟩
  unfold instrText
  split
  · exact .inl rfl
  · exact .inr rfl

theorem tokens_instrText (i : Instr) :
    tokens (instrText i) = i.mnemonic :: if i.argClass = .none then [] else [tokenText i.arg] := by
  unfold instrText
  split
  · exact tokens_token (isToken_mnemonic i)
  · rw [tokens_token_blank (isToken_mnemonic i), tokens_token (isToken_tokenText i.arg)]

theorem tokens_endcode : tokens endcode = [endcode] := by decide

theorem instrText_ne_endcode (i : Instr) : instrText i ≠ endcode := by
  intro same
  obtain ⟨row, inTable, sameInstr⟩ := exists_row i
  have sameTokens := (tokens_instrText i).symm.trans ((congrArg tokens same).trans tokens_endcode)
  have mnemonic : i.mnemonic = row.2.1 := sameInstr ▸ mnemonic_of_row inTable i.arg
  exact mnemonic_ne_endcode_of_row row inTable (mnemonic.symm.trans (List.head_eq_of_cons_eq sameTokens))

section
variable {row : Nat × List Char × ArgClass × (Int → Instr)}

theorem codeLine_of_row_no_arg (h : row ∈ opcodeTable) (noArgument : row.2.2.1 = .none) :
    codeLine [row.2.1] = .ok (row.2.2.2 0) := by
  simp only [codeLine, find_mnemonic h, noArgument]

theorem codeLine_of_row_arg (h : row ∈ opcodeTable) (hasArgument : row.2.2.1 ≠ .none) {t : List Char}
    {v : Int} (reads : hexToken t = some v) : codeLine [row.2.1, t] = .ok (row.2.2.2 v) := by
  cases argument : row.2.2.1 with
  | none => exact absurd argument hasArgument
  | _ => simp only [codeLine, find_mnemonic h, argument, reads]

end

/-- The code line of an instruction is read back as the instruction (R63). -/
theorem codeLine_instrText {i : Instr} (fits : i.wellFormed) :
    codeLine (tokens (instrText i)) = .ok i := by
  obtain ⟨row, inTable, same⟩ := exists_row i
  have argClass : i.argClass = row.2.2.1 := same ▸ argClass_of_row inTable i.arg
  have mnemonic : i.mnemonic = row.2.1 := same ▸ mnemonic_of_row inTable i.arg
  rw [tokens_instrText, argClass, mnemonic]
  split
  · next noArgument =>
    have zero : i.arg = 0 := same ▸ (arg_of_row_argClass row inTable i.arg).1 noArgument
    rw [codeLine_of_row_no_arg inTable noArgument, ← zero, same]
  · next hasArgument =>
    rw [codeLine_of_row_arg inTable hasArgument (hexToken_tokenText fits), same]

theorem dataLine_pairLine {p : Int × Int} (fits : fits32 p.1 ∧ fits32 p.2) :
    dataLine (tokens (pairLine p)) = .ok p := by
  simp only [dataLine, hexTokens_pairLine fits]

section
variable {l : Line} {rest : List Line} {n : Nat} {blankSeen : Bool} {img : Image}

theorem assembleFrom_code_line {i : Instr} (begins : BeginsWithToken l) (notEnd : l ≠ endcode)
    (reads : codeLine (tokens l) = .ok i) (assembles : assembleFrom rest (n + 1) blankSeen false = .ok img) :
    assembleFrom (l :: rest) n blankSeen false = .ok ⟨imageLine i :: img.code, img.data⟩ := by
  rw [assembleFrom, if_neg begins.tokens_ne_nil, if_neg begins.no_leading_blank, if_neg (by decide),
    if_neg notEnd, reads]
  simp only [assembles]

theorem assembleFrom_endcode :
    assembleFrom (endcode :: rest) n blankSeen false = assembleFrom rest (n + 1) blankSeen true := by
  rw [assembleFrom, tokens_endcode, if_neg (by decide), if_neg (by decide), if_neg (by decide), if_pos rfl]

theorem assembleFrom_data_line {p : Int × Int} (begins : BeginsWithToken l)
    (reads : dataLine (tokens l) = .ok p) (assembles : assembleFrom rest (n + 1) blankSeen true = .ok img) :
    assembleFrom (l :: rest) n blankSeen true = .ok ⟨img.code, p :: img.data⟩ := by
  rw [assembleFrom, if_neg begins.tokens_ne_nil, if_neg begins.no_leading_blank, if_pos rfl, reads]
  simp only [assembles]

end

theorem assembleFrom_data {data : List (Int × Int)} (fits : ∀ p ∈ data, fits32 p.1 ∧ fits32 p.2)
    (n : Nat) (blankSeen : Bool) :
    assembleFrom (data.map pairLine) n blankSeen true = .ok ⟨[], data⟩ := by
  induction data generalizing n with
  | nil => rfl
  | cons p data ih =>
    obtain ⟨fitsFirst, fitsRest⟩ := List.forall_mem_cons.mp fits
    exact assembleFrom_data_line (beginsWithToken_pairLine p) (dataLine_pairLine fitsFirst)
      (ih fitsRest (n + 1))

theorem assembleFrom_source {program : List Instr} {data : List (Int × Int)}
    (wellFormed : ∀ i ∈ program, i.wellFormed) (fits : ∀ p ∈ data, fits32 p.1 ∧ fits32 p.2) (n : Nat)
    (blankSeen : Bool) :
    assembleFrom (program.map instrText ++ endcode :: data.map pairLine) n blankSeen false =
      .ok ⟨program.map imageLine, data⟩ := by
  induction program generalizing n with
  | nil => exact assembleFrom_endcode.trans (assembleFrom_data fits (n + 1) blankSeen)
  | cons i program ih =>
    obtain ⟨fitsFirst, wellFormedRest⟩ := List.forall_mem_cons.mp wellFormed
    exact assembleFrom_code_line (beginsWithToken_instrText i) (instrText_ne_endcode i)
      (codeLine_instrText fitsFirst) (ih wellFormedRest (n + 1))

/-- Settles O53, by induction on the program, and after `ENDCODE` on the data lines. -/
theorem assemblingASource : Obligations.AssemblingASource :=
  fun _ _ wellFormed fits => assembleFrom_source wellFormed fits 1 false

end Sys2Proof.Machine
end
